-- ==== Sys2Proof/Word.lean ====
section
/-! DEFINITION. The word types of the block: a limb, a bus word, a byte of text, a bus offset
(spec 00_scope.md R7, 20_memory.md R50). -/

namespace Sys2Proof

/-- A limb, one 64-bit unsigned word of a magnitude (R7, W = 64). -/
abbrev Limb := BitVec 64

/-- A half-word of a limb (R7, W/2 = 32). -/
abbrev HalfWord := BitVec 32

/-- One bus word, and one command word (R51, R70). -/
abbrev BusWord := BitVec 32

/-- One byte of text (R57). -/
abbrev Byte := BitVec 8

/-- A byte offset in the host register space (R50). -/
abbrev Offset := BitVec 16

end Sys2Proof
end

