-- ==== Sys2Proof/Config.lean ====
section
/-! DEFINITION. The implementation parameters of the block with their legal range, and this hardware's
values (spec 00_scope.md R8), and the one free value: the bytes of TBUF that nothing has written since the
last reset (10_state.md R47, 93_implementation_defined.md U2). -/

namespace Sys2Proof.Config

/-- The parameters that the model takes as arguments (R8; log 1). The fourth one, `LAT`, is open: the
inputs say when the engine moves (R244; log 5). -/
structure Params where
  /-- `NREG`, the number of big-integer registers. -/
  nreg : Nat
  /-- `LMAX`, the most limbs a register holds. -/
  lmax : Nat
  /-- `TBUF_SIZE`, the text buffer's size in bytes. -/
  tbufSize : Nat
deriving DecidableEq, Repr

/-- The legal range of the parameters (R8): `NREG` 1 to 16, `LMAX` 1 to 65535, `TBUF_SIZE` 4 to 32768 and
a multiple of 4. -/
def Params.legal (p : Params) : Bool :=
  decide (1 ≤ p.nreg) && decide (p.nreg ≤ 16) && decide (1 ≤ p.lmax) && decide (p.lmax ≤ 65535) &&
  decide (4 ≤ p.tbufSize) && decide (p.tbufSize ≤ 32768) && decide (p.tbufSize % 4 = 0)

/-- This hardware's values (R8). -/
abbrev hardware : Params where
  nreg     := 16
  lmax     := 64
  tbufSize := 4096

/-- The command-set version number (R1, R41). -/
abbrev version : Nat := 1

/-- FREE VALUE (R47, U2; log 3). The byte that TBUF holds at an index nothing has written since the
last reset: one draw for each reset (first argument) and each index (second). It has no body, so no
proof can know its value, and every theorem holds for every draw. -/
opaque freeTbufByte : Nat → Nat → Byte

end Sys2Proof.Config
end

