-- ==== Sys2Proof/Syntax.lean ====
section
/-! DEFINITION. The commands of the block, one constructor for each row of the opcode table
(spec 30_encoding.md R75). -/

namespace Sys2Proof

/-- A command with its register indexes. The 64-bit operand is not part of the word: it is the copy
of ARG latched at accept (R71, R77). An index is the number of the register, in the order RD, RA, RB
restricted to the fields the format uses (R79). -/
inductive Instr where
  /-- `LDI rd`, load a signed native integer (R103). -/
  | ldi (rd : Nat)
  /-- `LDU rd`, load an unsigned native integer (R104). -/
  | ldu (rd : Nat)
  /-- `MOV rd, ra`, copy a register (R105). -/
  | mov (rd ra : Nat)
  /-- `CMP ra, rb`, signed comparison (R106). -/
  | cmp (ra rb : Nat)
  /-- `CMPM ra, rb`, magnitude comparison (R107). -/
  | cmpm (ra rb : Nat)
  /-- `CMPU ra, rb`, comparison with rb given ra's sign (R108). -/
  | cmpu (ra rb : Nat)
  /-- `RDLIMB ra`, read one limb (R109). -/
  | rdlimb (ra : Nat)
  /-- `RDINFO ra`, read sign and length (R110). -/
  | rdinfo (ra : Nat)
  /-- `PARSE rd`, decimal text to a register (R135). -/
  | parse (rd : Nat)
  /-- `RENDER ra`, a register to decimal text (R140). -/
  | render (ra : Nat)
  /-- `ADD rd, ra, rb` (R167). -/
  | add (rd ra rb : Nat)
  /-- `SUB rd, ra, rb` (R168). -/
  | sub (rd ra rb : Nat)
  /-- `NEG rd, ra` (R169). -/
  | neg (rd ra : Nat)
  /-- `MUL rd, ra, rb` (R196). -/
  | mul (rd ra rb : Nat)
deriving DecidableEq, Repr

/-- The register indexes a command uses, the fields its format names (R72). -/
def Instr.used : Instr → List Nat
  | .ldi rd | .ldu rd | .parse rd => [rd]
  | .rdlimb ra | .rdinfo ra | .render ra => [ra]
  | .mov rd ra | .neg rd ra => [rd, ra]
  | .cmp ra rb | .cmpm ra rb | .cmpu ra rb => [ra, rb]
  | .add rd ra rb | .sub rd ra rb | .mul rd ra rb => [rd, ra, rb]

end Sys2Proof
end

