-- ==== Sys2Proof/WellFormed.lean ====
section
/-! DEFINITION. Well-formed commands: every register field a command uses is below NREG, for
any NREG and for this hardware's (spec 30_encoding.md R74). There is no other operand in the word to check (R71). -/

namespace Sys2Proof

/-- Every used register index is below `nreg` (R74). -/
def indexesLegal (nreg : Nat) (used : List Nat) : Bool := used.all (fun i => decide (i < nreg))

/-- A well-formed command of a block with `nreg` registers (R74). -/
def Instr.wfFor (nreg : Nat) (i : Instr) : Bool := indexesLegal nreg i.used

/-- A well-formed command of this hardware (R8, R74). -/
def Instr.wf (i : Instr) : Bool := i.wfFor Config.hardware.nreg

end Sys2Proof
end

