-- ==== Sys2Proof/Decode.lean ====
section
/-! DEFINITION. The decoder, total on every 32-bit word and rejecting by name (spec 30_encoding.md
R70 to R78), the opcode table as the spec prints it (R75), and the encoder (R71, R82). -/

namespace Sys2Proof

/-- Why a word is no command. Each one raises ILLEGAL at completion (R73, R74, R76). -/
inductive Reject where
  /-- `OPC` is not in the opcode table (R76). -/
  | reservedOpcode
  /-- A field the format does not use, or `Z`, is not 0 (R73). -/
  | mustBeZero
  /-- A used register field is at or above `NREG` (R74). -/
  | registerIndex
deriving DecidableEq, Repr

/-! ### Fields of a command word (R71) -/

/-- `OPC`, bits 31:24. -/
def opcField (c : BusWord) : Nat := c.toNat / 2 ^ 24
/-- `RD`, bits 23:20. -/
def rdField (c : BusWord) : Nat := c.toNat / 2 ^ 20 % 16
/-- `RA`, bits 19:16. -/
def raField (c : BusWord) : Nat := c.toNat / 2 ^ 16 % 16
/-- `RB`, bits 15:12. -/
def rbField (c : BusWord) : Nat := c.toNat / 2 ^ 12 % 16
/-- `Z`, bits 11:0. -/
def zField (c : BusWord) : Nat := c.toNat % 2 ^ 12

/-- The checks every format shares: the fields that must be 0 (R73), then the used indexes against
the number of registers (R74). -/
def checked (nreg : Nat) (mustBeZero used : List Nat) (i : Instr) : Except Reject Instr :=
  if mustBeZero.any (fun f => f != 0) then .error .mustBeZero
  else if indexesLegal nreg used then .ok i
  else .error .registerIndex

/-- Format RRR uses RD, RA, RB (R72). -/
def decodeRRR (nreg : Nat) (mk : Nat → Nat → Nat → Instr) (c : BusWord) : Except Reject Instr :=
  checked nreg [zField c] [rdField c, raField c, rbField c] (mk (rdField c) (raField c) (rbField c))

/-- Format RR uses RD, RA (R72). -/
def decodeRR (nreg : Nat) (mk : Nat → Nat → Instr) (c : BusWord) : Except Reject Instr :=
  checked nreg [rbField c, zField c] [rdField c, raField c] (mk (rdField c) (raField c))

/-- Format D uses RD (R72). -/
def decodeD (nreg : Nat) (mk : Nat → Instr) (c : BusWord) : Except Reject Instr :=
  checked nreg [raField c, rbField c, zField c] [rdField c] (mk (rdField c))

/-- Format S uses RA (R72). -/
def decodeS (nreg : Nat) (mk : Nat → Instr) (c : BusWord) : Except Reject Instr :=
  checked nreg [rdField c, rbField c, zField c] [raField c] (mk (raField c))

/-- Format SS uses RA, RB (R72). -/
def decodeSS (nreg : Nat) (mk : Nat → Nat → Instr) (c : BusWord) : Except Reject Instr :=
  checked nreg [rdField c, zField c] [raField c, rbField c] (mk (raField c) (rbField c))

/-- Decoding for a block with `nreg` registers (R75, R76, R78). -/
def decodeFor (nreg : Nat) (c : BusWord) : Except Reject Instr :=
  if opcField c = 0x01 then decodeD nreg .ldi c
  else if opcField c = 0x02 then decodeD nreg .ldu c
  else if opcField c = 0x03 then decodeRR nreg .mov c
  else if opcField c = 0x04 then decodeSS nreg .cmp c
  else if opcField c = 0x05 then decodeSS nreg .cmpm c
  else if opcField c = 0x06 then decodeSS nreg .cmpu c
  else if opcField c = 0x07 then decodeS nreg .rdlimb c
  else if opcField c = 0x08 then decodeS nreg .rdinfo c
  else if opcField c = 0x10 then decodeD nreg .parse c
  else if opcField c = 0x11 then decodeS nreg .render c
  else if opcField c = 0x20 then decodeRRR nreg .add c
  else if opcField c = 0x21 then decodeRRR nreg .sub c
  else if opcField c = 0x22 then decodeRR nreg .neg c
  else if opcField c = 0x30 then decodeRRR nreg .mul c
  else .error .reservedOpcode

/-- Decoding on this hardware (R8, R78). -/
def decode (c : BusWord) : Except Reject Instr := decodeFor Config.hardware.nreg c

/-! ### The opcode table as printed (R75) -/

/-- A row of the opcode table: a word selects the row when `(c & mask) = match` (R75). -/
structure Row where
  matchWord : BusWord
  maskWord  : BusWord
deriving DecidableEq, Repr

/-- The word selects the row (R75). -/
def Row.selects (r : Row) (c : BusWord) : Bool := c &&& r.maskWord == r.matchWord

/-- The opcode table of R75, in its order. -/
def opcodeTable : List Row :=
  [ ⟨0x01000000, 0xFF0FFFFF⟩, ⟨0x02000000, 0xFF0FFFFF⟩, ⟨0x03000000, 0xFF00FFFF⟩,
    ⟨0x04000000, 0xFFF00FFF⟩, ⟨0x05000000, 0xFFF00FFF⟩, ⟨0x06000000, 0xFFF00FFF⟩,
    ⟨0x07000000, 0xFFF0FFFF⟩, ⟨0x08000000, 0xFFF0FFFF⟩, ⟨0x10000000, 0xFF0FFFFF⟩,
    ⟨0x11000000, 0xFFF0FFFF⟩, ⟨0x20000000, 0xFF000FFF⟩, ⟨0x21000000, 0xFF000FFF⟩,
    ⟨0x22000000, 0xFF00FFFF⟩, ⟨0x30000000, 0xFF000FFF⟩ ]

/-- The row of a command (R75). -/
def Instr.row : Instr → Row
  | .ldi _     => ⟨0x01000000, 0xFF0FFFFF⟩
  | .ldu _     => ⟨0x02000000, 0xFF0FFFFF⟩
  | .mov _ _   => ⟨0x03000000, 0xFF00FFFF⟩
  | .cmp _ _   => ⟨0x04000000, 0xFFF00FFF⟩
  | .cmpm _ _  => ⟨0x05000000, 0xFFF00FFF⟩
  | .cmpu _ _  => ⟨0x06000000, 0xFFF00FFF⟩
  | .rdlimb _  => ⟨0x07000000, 0xFFF0FFFF⟩
  | .rdinfo _  => ⟨0x08000000, 0xFFF0FFFF⟩
  | .parse _   => ⟨0x10000000, 0xFF0FFFFF⟩
  | .render _  => ⟨0x11000000, 0xFFF0FFFF⟩
  | .add _ _ _ => ⟨0x20000000, 0xFF000FFF⟩
  | .sub _ _ _ => ⟨0x21000000, 0xFF000FFF⟩
  | .neg _ _   => ⟨0x22000000, 0xFF00FFFF⟩
  | .mul _ _ _ => ⟨0x30000000, 0xFF000FFF⟩

/-! ### The encoder (R71, R82) -/

/-- The word `OPC, RD, RA, RB, 0x000` from its fields (R82). -/
def encodeFields (opc rd ra rb : Nat) : BusWord :=
  BitVec.ofNat 32 (opc * 2 ^ 24 + rd * 2 ^ 20 + ra * 2 ^ 16 + rb * 2 ^ 12)

/-- The command word of a command (R75, R82). -/
def encode : Instr → BusWord
  | .ldi rd       => encodeFields 0x01 rd 0 0
  | .ldu rd       => encodeFields 0x02 rd 0 0
  | .mov rd ra    => encodeFields 0x03 rd ra 0
  | .cmp ra rb    => encodeFields 0x04 0 ra rb
  | .cmpm ra rb   => encodeFields 0x05 0 ra rb
  | .cmpu ra rb   => encodeFields 0x06 0 ra rb
  | .rdlimb ra    => encodeFields 0x07 0 ra 0
  | .rdinfo ra    => encodeFields 0x08 0 ra 0
  | .parse rd     => encodeFields 0x10 rd 0 0
  | .render ra    => encodeFields 0x11 0 ra 0
  | .add rd ra rb => encodeFields 0x20 rd ra rb
  | .sub rd ra rb => encodeFields 0x21 rd ra rb
  | .neg rd ra    => encodeFields 0x22 rd ra 0
  | .mul rd ra rb => encodeFields 0x30 rd ra rb

/-! ### A word as the opcode table numbers its bits -/

/-- The command word whose low `nbits` bits are `w`'s and whose other bits are 0. A command is one
32-bit word, so the table's numbering is the word's own (R70, R71; log 7). -/
def tableWord (nbits w : Nat) : BusWord := BitVec.ofNat 32 (w % 2 ^ nbits)

/-- The command this hardware's decoder reads from the word with bits `w`; none where it rejects it. -/
def decodeTableWord (nbits w : Nat) : Option Instr :=
  match decode (tableWord nbits w) with
  | .ok i => some i
  | .error _ => none

end Sys2Proof
end

