-- ==== Sys2Proof/Machine/State.lean ====
section
/-! DEFINITION. The state of the block (spec 10_state.md), its inputs from outside, and the state
right after reset (10_state.md R47). -/

namespace Sys2Proof.Machine

/-- One big-integer register as the pair `(S, m)` (R12, R30, R33). `neg` is `S`: true is 1, negative.
`mag` is the limb list `L[0..LEN-1]`, least significant first, so `LEN` is its length. -/
structure BigReg where
  neg : Bool
  mag : List Limb
deriving DecidableEq, Repr

/-- The codes of `STATUS.ERR` (R211). The reserved codes 5 to 15 are never written (U7; log 13). -/
inductive ErrCode where
  /-- 0: the command completed and wrote its results. -/
  | none
  /-- 1: PARSE text does not match the grammar of R130. -/
  | invalidFormat
  /-- 2: a register result would need more than `LMAX` limbs. -/
  | capacity
  /-- 3: a text range would leave `TBUF`. -/
  | range
  /-- 4: reserved opcode, nonzero must-be-zero bit, or register index at or above `NREG`. -/
  | illegal
deriving DecidableEq, Repr

/-- A command in the pending latch: the word and the copy of `ARG` made at accept (R43). -/
structure Pending where
  cmd : BusWord
  arg : Limb
deriving DecidableEq, Repr

/-- What comes from outside the command rules, one a step (log 4): the host's accesses (R51), the
moment the engine takes its turn (R243, R244), and the two edges of the reset input (R240). -/
inductive Input where
  /-- A host read of `bits` bits at an offset; only 32 is legal (R51). -/
  | hostRead (bits : Nat) (offset : Offset)
  /-- A host write of `bits` bits at an offset; only 32 is legal (R51). -/
  | hostWrite (bits : Nat) (offset : Offset) (data : BusWord)
  /-- The engine's turn: the pending command, if there is one, completes (R243). -/
  | engine
  /-- Reset is applied (R240). -/
  | applyReset
  /-- Reset is released (R245). -/
  | releaseReset
deriving DecidableEq, Repr

/-- Why the machine would stop with a fault. It has no constructor: no behaviour of the spec is a
fault, and every command word has a defined completion in every state (93_implementation_defined.md,
end of part 1; R78). -/
inductive Fault where
deriving DecidableEq, Repr

/-- Why the machine has no next state. -/
inductive Refusal where
  /-- A command with no meaning yet. Raised by `exec`'s refused arms only, of which there are none.
  Safe: nothing is claimed about such a command. -/
  | notModelled (mnemonic : String)
  /-- A host access that is not an aligned 32-bit access (R51, R217, U9: `refuse`). Raised by the
  step that meets it. Safe: nothing is claimed about a run that makes one (log 9). -/
  | hostAccessForm
  /-- A host access while reset is applied (R240, U10: `refuse`). Raised by the step that meets it.
  Safe: nothing is claimed about a run that makes one (log 9). -/
  | hostAccessDuringReset
deriving DecidableEq, Repr

/-- The state of the block. `CMD` has no storage (R37), `PARAM0` and `PARAM1` are read from
`params` (R41, R42), and `STATUS` is read from `pend`, `ovr` and `err` (R38, R43; log 13). -/
structure State where
  /-- The implementation parameters, which no step changes; the host reads them as `PARAM0` and `PARAM1`
  (R8, R41, R42; log 1). -/
  params : Config.Params
  /-- The big-integer registers `R0` to `R(NREG-1)`, so its length is `NREG` in every reachable state
  (R30). -/
  regs : List BigReg
  /-- `ARG` (R39). -/
  arg : Limb
  /-- `RES` (R40). -/
  res : Limb
  /-- `STATUS.OVR` (R38). -/
  ovr : Bool
  /-- `STATUS.ERR` (R38, R211). -/
  err : ErrCode
  /-- The pending latch `PEND` (R43). -/
  pend : Option Pending
  /-- The bytes of `TBUF` written since the last reset, by index, in rising order (R46; log 3). -/
  tbuf : List Host.Cell
  /-- MODEL field: which draw of the unwritten `TBUF` bytes holds (R47, U2; log 3). -/
  tbufDraw : Nat
  /-- The reset input: true while reset is applied (R240; log 8). -/
  resetApplied : Bool
  /-- MODEL field: what the block returned to the last host read (log 6). -/
  readData : Option BusWord
  /-- MODEL field: the inputs still to come, the next one first (log 4). -/
  inputs : List Input
deriving DecidableEq, Repr

/-- The state right after reset of a block with the parameters `p` (R8, R47): every
register is +0, nothing is pending, `STATUS`, `ARG` and `RES` are 0, no byte of `TBUF` has been written,
and reset is released (log 8). The model's own fields hold the values log 3, log 4 and log 6 name. -/
def State.resetFor (p : Config.Params) : State where
  params       := p
  regs         := List.replicate p.nreg ⟨false, [0]⟩
  arg          := 0
  res          := 0
  ovr          := false
  err          := .none
  pend         := .none
  tbuf         := []
  tbufDraw     := 0
  resetApplied := false
  readData     := .none
  inputs       := []

/-- This hardware right after reset (R8, R47). -/
def State.reset : State := State.resetFor Config.hardware

end Sys2Proof.Machine
end

