-- ==== Sys2Proof/Machine/Limbs.lean ====
section
/-! DEFINITION. Limb lists and the numbers they stand for (spec 00_scope.md R15 to R17). -/

namespace Sys2Proof.Machine

/-- `mag(m)`, the sum of `m[k] * 2^(64k)` (R15). -/
def magValue : List Limb → Nat
  | [] => 0
  | l :: m => l.toNat + 2 ^ 64 * magValue m

/-- `val(S, m)`, the signed value of a register (R15). -/
def BigReg.val (r : BigReg) : Int := if r.neg then -(magValue r.mag : Int) else magValue r.mag

/-- The number of bits of `n`, 0 for 0 (R16). -/
def bitLength (n : Nat) : Nat := if n = 0 then 0 else n.log2 + 1

/-- The length of `limbs(n)`: `ceil(bitlength(n) / 64)`, and 1 for 0 (R16). -/
def limbCount (n : Nat) : Nat := max 1 ((bitLength n + 63) / 64)

/-- `limbs(n)`, with `m[k] = (n div 2^(64k)) mod 2^64` (R16). -/
def limbsOf (n : Nat) : List Limb :=
  (List.range (limbCount n)).map (fun k => BitVec.ofNat 64 (n / 2 ^ (64 * k)))

/-- `enc(v)`, the register value of an integer; zero is positive (R17). -/
def enc (v : Int) : BigReg := ⟨decide (v < 0), limbsOf v.natAbs⟩

/-- Drop the zero limbs at the most significant end, all of them. -/
def trimZeros : List Limb → List Limb
  | [] => []
  | l :: m =>
    match trimZeros m with
    | [] => if l = 0 then [] else [l]
    | t :: ts => l :: t :: ts

/-- `canon(m)`: most significant zero limbs are removed while the length is above 1 (R16). The empty
list, which no rule produces, gives `[0]`, as `canon(m) = limbs(mag(m))` says. -/
def canon : List Limb → List Limb
  | [] => [0]
  | l :: m => l :: trimZeros m

/-- `toSigned64(v)`, the two's-complement reading of a 64-bit pattern (R11; log 16). -/
def toSigned64 (v : Limb) : Int := if v.toNat < 2 ^ 63 then v.toNat else (v.toNat : Int) - 2 ^ 64

end Sys2Proof.Machine
end

