-- ==== Sys2Proof/Machine/Ops.lean ====
section
/-! DEFINITION. The named operations over the registers, the text buffer and the host-visible
registers, and the completion report (spec 10_state.md, 20_memory.md, 60_exceptions.md R210 to R216). -/

namespace Sys2Proof.Machine

/-- What a command or a step answers. -/
abbrev Answer := Host.Outcome State Fault Refusal

/-! ### The text buffer (R46; log 3) -/

/-- The bytes written since the last reset, as index and byte. -/
abbrev Memory := List Host.Cell

/-- The byte written at `a` since the last reset; none if nothing has been written there. -/
def Memory.find (m : Memory) (a : Nat) : Option Byte :=
  match m with
  | [] => none
  | c :: cs => if c.1 = a then some c.2 else Memory.find cs a

/-- Write one byte, keeping the list in rising order with one entry an index. -/
def Memory.write (m : Memory) (a : Nat) (b : Byte) : Memory :=
  match m with
  | [] => [(a, b)]
  | c :: cs =>
    if a < c.1 then (a, b) :: c :: cs
    else if a = c.1 then (a, b) :: cs
    else c :: Memory.write cs a b

/-- Every listed index is at or above `lo` and below `size`, and the indexes rise strictly. -/
def Memory.wfFrom (size lo : Nat) : Memory → Bool
  | [] => true
  | c :: cs => decide (lo ≤ c.1) && decide (c.1 < size) && Memory.wfFrom size (c.1 + 1) cs

/-- The canonical form of the text buffer: strictly rising indexes, all below `size`, which is
`TBUF_SIZE`. A listed entry
says that the byte was written, so none can equal an unlisted one (log 3). -/
def Memory.wf (size : Nat) (m : Memory) : Bool := Memory.wfFrom size 0 m

/-- What an index nothing has written reads as: this reset's free byte (R47, U2; log 3). -/
def State.unwritten (s : State) (a : Nat) : Byte := Config.freeTbufByte s.tbufDraw a

/-- `TBUF[a]` (R46). -/
def State.readByte (s : State) (a : Nat) : Byte := (Memory.find s.tbuf a).getD (s.unwritten a)

/-- Write `TBUF[a]` (R46). -/
def State.writeByte (s : State) (a : Nat) (b : Byte) : State :=
  { s with tbuf := Memory.write s.tbuf a b }

/-- `MemRead(addr, n)`: the bytes `TBUF[addr..addr+n-1]`, first byte first (R13). -/
def State.memRead (s : State) (addr n : Nat) : List Byte :=
  (List.range n).map (fun k => s.readByte (addr + k))

/-- `MemWrite(addr, n, v)`: byte `v[k]` to `TBUF[addr+k]` (R13). -/
def State.memWrite (s : State) (addr : Nat) : List Byte → State
  | [] => s
  | b :: bs => State.memWrite (s.writeByte addr b) (addr + 1) bs

/-! ### The big-integer registers (R30, R36) -/

/-- The value +0 (R17, R47). -/
def BigReg.zero : BigReg := ⟨false, [0]⟩

/-- `R[i]` (R12). A command that reads a register has already checked its index (R74), so the value
given above `NREG` is never read. -/
def State.reg (s : State) (i : Nat) : BigReg := s.regs[i]?.getD BigReg.zero

/-- `R[i] <- v` (R12); no other register changes (R36). -/
def State.writeReg (s : State) (i : Nat) (v : BigReg) : State :=
  { s with regs := s.regs.set i v }

/-! ### Host-visible registers -/

/-- `RES <- v` (R40). -/
def State.writeRes (s : State) (v : Limb) : State := { s with res := v }

/-- `STATUS.BUSY`, 1 exactly when `PEND` is not empty (R43). -/
def State.busy (s : State) : Bool := s.pend.isSome

/-- `A`, the copy of `ARG` latched at accept (R43, R77). With nothing pending it is what an accept
would latch now; the step never asks for that (log 10). -/
def State.latched (s : State) : Limb :=
  match s.pend with
  | some p => p.arg
  | none => s.arg

/-! ### Completion and errors -/

/-- The completion report: `STATUS.ERR` is written and `PEND` is emptied, so `BUSY` is 0 (R214). -/
def State.finish (s : State) (code : ErrCode) : State := { s with err := code, pend := none }

/-- A command completes with its results written and `ERR = NONE` (R211, R214). -/
def succeed (s : State) : Answer := .next (s.finish .none)

/-- `raise Error(code)`, the block's one way to take an error (R14, R210, R214): the command
completes, only `STATUS.ERR` and `PEND` are written, and there is no handler, no vector, no saved
state and no change of mode. An error needs no return step (R215), so there is no return operation. -/
def raiseError (code : ErrCode) (s : State) : Answer := .next (s.finish code)

/-- Write a big-integer result to `R[rd]`, or raise CAPACITY if it needs more than `LMAX` limbs; the
check is on the final result only (R166, R195, R135). -/
def writeResult (rd : Nat) (v : BigReg) (s : State) : Answer :=
  if s.params.lmax < v.mag.length then raiseError .capacity s
  else succeed (s.writeReg rd v)

/-! ### Accept and reset -/

/-- A host write of `c` to `CMD`: accepted when nothing is pending, with `ARG` latched (R242), else
dropped with `OVR` set (R216). -/
def State.writeCmd (s : State) (c : BusWord) : State :=
  match s.pend with
  | none => { s with pend := some ⟨c, s.arg⟩ }
  | some _ => { s with ovr := true }

/-- Reset is applied: the parameters stay (R8), every piece of the block's state takes its reset value
and a pending command is discarded (R47, R240). The unwritten TBUF bytes are drawn anew (log 3). What the host has read and
what it will do next are not the block's (log 6, log 8). -/
def State.applyReset (s : State) : State :=
  { State.resetFor s.params with
      tbufDraw := s.tbufDraw + 1
      resetApplied := true
      readData := s.readData
      inputs := s.inputs }

/-- Reset is released (R245). -/
def State.releaseReset (s : State) : State := { s with resetApplied := false }

end Sys2Proof.Machine
end

