-- ==== Sys2Proof/Machine/Operands.lean ====
section
/-! DEFINITION. How a command reads the 64-bit argument `A` (spec 30_encoding.md R77) and its register
fields (R74). -/

namespace Sys2Proof.Machine

/-- `A[31:0]` as an unsigned number: `OFF` of PARSE and RENDER (R77). -/
def argOff (a : Limb) : Nat := (a.extractLsb' 0 32).toNat

/-- `A[63:32]` as an unsigned number: `LEN` of PARSE (R77). -/
def argLen (a : Limb) : Nat := (a.extractLsb' 32 32).toNat

/-- `v = toSigned64(A)`: LDI (R77). -/
def argSigned (a : Limb) : Int := toSigned64 a

/-- `v = A`, unsigned: LDU (R77). -/
def argUnsigned (a : Limb) : Nat := a.toNat

/-- `k = A`, unsigned, all 64 bits: RDLIMB (R77). -/
def argIndex (a : Limb) : Nat := a.toNat

/-- The register fields a command uses are checked before anything else of it: a field at or above
`NREG` raises ILLEGAL (R74, R213). After decoding this check has passed (R78; log 11). -/
def withLegal (used : List Nat) (s : State) (answer : Answer) : Answer :=
  if indexesLegal s.params.nreg used then answer else raiseError .illegal s

end Sys2Proof.Machine
end

