-- ==== Sys2Proof/Machine/Codec.lean ====
section
/-! DEFINITION. The Decimal Codec by its value rules (spec 41_decimal_codec.md R130, R131, R137) and the
commands PARSE and RENDER (R135, R140). The reference string procedures are in CodecReference. -/

namespace Sys2Proof.Machine

/-- The byte of `'-'` (R57; log 16). -/
def minusByte : Byte := 0x2D

/-- The byte of digit `d`, `0x30 + d` (R57; log 16). -/
def digitByte (d : Nat) : Byte := BitVec.ofNat 8 (0x30 + d)

/-- A byte is a digit when it is 0x30 to 0x39 (R57). -/
def isDigit (b : Byte) : Bool := decide (0x30 ≤ b.toNat) && decide (b.toNat ≤ 0x39)

/-- The value of a digit byte (R131). -/
def digitOf (b : Byte) : Nat := b.toNat - 0x30

/-! ### Decimal to binary -/

/-- The text starts with `'-'` (R130). -/
def hasMinus (t : List Byte) : Bool := t.head? == some minusByte

/-- The text after its optional leading `'-'` (R130). -/
def digitPart (t : List Byte) : List Byte := if hasMinus t then t.tail else t

/-- Valid text: an optional `'-'`, then one or more digits, and nothing else (R130). -/
def validText (t : List Byte) : Bool := !(digitPart t).isEmpty && (digitPart t).all isDigit

/-- The number a digit list stands for, most significant digit first (R131). -/
def decimalValue (ds : List Nat) : Nat := ds.foldl (fun n d => 10 * n + d) 0

/-- `parseValue(t)` of valid text (R131). -/
def parseValue (t : List Byte) : BigReg :=
  let n := decimalValue ((digitPart t).map digitOf)
  enc (if hasMinus t then -(n : Int) else n)

/-- PARSE (R135): the range check, the format check, the capacity check, then the write, in the order
of R213. -/
def execParse (rd : Nat) (s : State) : Answer :=
  withLegal [rd] s (
    let off := argOff s.latched
    let len := argLen s.latched
    if s.params.tbufSize < off + len then raiseError .range s
    else
      let t := s.memRead off len
      if validText t then writeResult rd (parseValue t) s
      else raiseError .invalidFormat s)

/-! ### Binary to decimal -/

/-- The decimal digits of `n` put before `acc`, with a bound on their number. -/
def decimalDigitsFrom : Nat → Nat → List Nat → List Nat
  | 0, _, acc => acc
  | bound + 1, n, acc =>
    if n < 10 then n :: acc else decimalDigitsFrom bound (n / 10) (n % 10 :: acc)

/-- The decimal digits of `n`, most significant first, no leading zeros, `[0]` for 0 (R137). A number
has at most as many decimal digits as bits. -/
def decimalDigits (n : Nat) : List Nat := decimalDigitsFrom (n.log2 + 1) n []

/-- `renderText(S, m)` (R137). -/
def renderText (r : BigReg) : List Byte :=
  let n := magValue r.mag
  let digits := (decimalDigits n).map digitByte
  if r.neg && n != 0 then minusByte :: digits else digits

/-- RENDER (R140): the text of `R[ra]` to `TBUF[OFF..]` and its length to `RES`, or RANGE with nothing
written. -/
def execRender (ra : Nat) (s : State) : Answer :=
  withLegal [ra] s (
    let off := argOff s.latched
    let t := renderText (s.reg ra)
    if s.params.tbufSize < off + t.length then raiseError .range s
    else succeed ((s.memWrite off t).writeRes (BitVec.ofNat 64 t.length)))

end Sys2Proof.Machine
end

