-- ==== Sys2Proof/Machine/Flags.lean ====
section
/-! DEFINITION. The block has no flags but the fields of STATUS (spec 10_state.md R45): the STATUS word
and its write (R38), and the codes a comparison and RDINFO write to RES (40_limb_store.md R102, R110). -/

namespace Sys2Proof.Machine

/-- The number of an error code (R211). -/
def ErrCode.code : ErrCode → BitVec 4
  | .none => 0
  | .invalidFormat => 1
  | .capacity => 2
  | .range => 3
  | .illegal => 4

/-- `STATUS` as the host reads it: BUSY bit 0, OVR bit 1, 0 in 3:2, ERR in 7:4, 0 in 31:8 (R38). -/
def State.statusWord (s : State) : BusWord :=
  0#24 ++ s.err.code ++ 0#2 ++ BitVec.ofBool s.ovr ++ BitVec.ofBool s.busy

/-- A host write to `STATUS`: bit 1 = 1 clears `OVR`, and nothing else changes (R38, R53). -/
def State.writeStatus (s : State) (d : BusWord) : State :=
  if d.getLsbD 1 then { s with ovr := false } else s

/-- The 64-bit code of a comparison result: LESS is -1, EQUAL is 0, GREATER is 1 (R102). -/
def compareCode : Ordering → Limb
  | .lt => 0xFFFFFFFFFFFFFFFF
  | .eq => 0
  | .gt => 1

/-- What RDINFO writes: the sign in bit 63, 0 in 62:32, LEN in 31:0 (R110). -/
def infoWord (r : BigReg) : Limb :=
  BitVec.ofBool r.neg ++ 0#31 ++ BitVec.ofNat 32 r.mag.length

end Sys2Proof.Machine
end

