-- ==== Sys2Proof/Machine/LimbStore.lean ====
section
/-! DEFINITION. The Limb Store: the comparison functions (spec 40_limb_store.md R100, R101) and the
commands LDI, LDU, MOV, CMP, CMPM, CMPU, RDLIMB, RDINFO (R103 to R110). -/

namespace Sys2Proof.Machine

/-! ### Comparison -/

/-- Compare limb lists of one length, most significant limb first (R100, the loop). -/
def compareFromTop : List Limb → List Limb → Ordering
  | a :: as, b :: bs =>
    if b < a then .gt
    else if a < b then .lt
    else compareFromTop as bs
  | _, _ => .eq

/-- `CompareMag(m1, m2)`: the longer list is greater; equal lengths compare from the most significant
limb down (R100). LESS, EQUAL, GREATER are `lt`, `eq`, `gt`. -/
def compareMag (m1 m2 : List Limb) : Ordering :=
  if m2.length < m1.length then .gt
  else if m1.length < m2.length then .lt
  else compareFromTop m1.reverse m2.reverse

/-- `Compare(a, b, signed)` (R101). -/
def compareReg (a b : BigReg) (signed : Bool) : Ordering :=
  if signed && a.neg != b.neg then
    if a.neg then .lt else .gt
  else
    let c := compareMag a.mag b.mag
    if a.neg then c.swap else c

/-! ### Construction and copy -/

/-- LDI: `R[rd] <- (S, [|v|])` with `v = toSigned64(A)` (R103). -/
def execLdi (rd : Nat) (s : State) : Answer :=
  withLegal [rd] s (
    let v := argSigned s.latched
    succeed (s.writeReg rd ⟨decide (v < 0), [BitVec.ofNat 64 v.natAbs]⟩))

/-- LDU: `R[rd] <- (0, [A])` (R104). -/
def execLdu (rd : Nat) (s : State) : Answer :=
  withLegal [rd] s (
    succeed (s.writeReg rd ⟨false, [BitVec.ofNat 64 (argUnsigned s.latched)]⟩))

/-- MOV: `R[rd] <- R[ra]` (R105). -/
def execMov (rd ra : Nat) (s : State) : Answer :=
  withLegal [rd, ra] s (succeed (s.writeReg rd (s.reg ra)))

/-! ### Comparison commands -/

/-- CMP: `RES <- code(Compare(R[ra], R[rb], signed))` (R106). -/
def execCmp (ra rb : Nat) (s : State) : Answer :=
  withLegal [ra, rb] s (
    succeed (s.writeRes (compareCode (compareReg (s.reg ra) (s.reg rb) true))))

/-- CMPM: `RES <- code(CompareMag)`, signs ignored (R107). -/
def execCmpm (ra rb : Nat) (s : State) : Answer :=
  withLegal [ra, rb] s (
    succeed (s.writeRes (compareCode (compareMag (s.reg ra).mag (s.reg rb).mag))))

/-- CMPU: `RES <- code(Compare(R[ra], R[rb], unsigned))` (R108). -/
def execCmpu (ra rb : Nat) (s : State) : Answer :=
  withLegal [ra, rb] s (
    succeed (s.writeRes (compareCode (compareReg (s.reg ra) (s.reg rb) false))))

/-! ### Observation commands -/

/-- RDLIMB: `RES <- L[k]` of `R[ra]`, 0 at or above `LEN`, with `k = A` (R109). -/
def execRdlimb (ra : Nat) (s : State) : Answer :=
  withLegal [ra] s (
    succeed (s.writeRes (((s.reg ra).mag[argIndex s.latched]?).getD 0)))

/-- RDINFO: `RES <- (sign, LEN)` of `R[ra]` (R110). -/
def execRdinfo (ra : Nat) (s : State) : Answer :=
  withLegal [ra] s (succeed (s.writeRes (infoWord (s.reg ra))))

end Sys2Proof.Machine
end

