-- ==== Sys2Proof/Machine/Additive.lean ====
section
/-! DEFINITION. The Additive Engine: the core procedure AddCore as the spec gives it (spec
42_additive.md R160 to R164) and the commands ADD, SUB, NEG (R167 to R169). -/

namespace Sys2Proof.Machine

/-- The operation sign of `AddCore`, +1 or -1 (R160). -/
inductive OpSign where
  | plus
  | minus
deriving DecidableEq, Repr

/-- The effective sign is -1: the magnitudes are differenced (R160). A product of three signs is
negative when an odd number of them is. -/
def differs (a b : BigReg) (op : OpSign) : Bool := a.neg ^^ (op == .minus) ^^ b.neg

/-- The result sign: `Sa` when adding; when differencing, 1 exactly if `Compare(a, b, unsigned)` is
LESS (R161). -/
def resultSign (a b : BigReg) (op : OpSign) : Bool :=
  if differs a b op then compareReg a b false == .lt else a.neg

/-- A carry bit as a limb. -/
def carryLimb (c : Bool) : Limb := if c then 1 else 0

/-- One limb of the loop: add the carry to `w`, then `b`'s limb when there is one, its carry checked
only when the first addition gave none. Gives the sum limb and the carry out (R162). -/
def addLimb (w : Limb) (b : Option Limb) (carry : Bool) : Limb × Bool :=
  let s := w + carryLimb carry
  let c1 := decide (s < w)
  match b with
  | none => (s, c1)
  | some bk =>
    let t := s + bk
    (t, c1 || (!c1 && decide (t < bk)))

/-- `AddLoop` over the zero-extended limbs of `a` and the limbs of `b`, least significant first;
`diff` complements each limb of `a` (R162). Gives the limbs and the final carry. -/
def addLoop (diff : Bool) : List Limb → List Limb → Bool → List Limb × Bool
  | [], _, carry => ([], carry)
  | x :: xs, mb, carry =>
    let w := if diff then ~~~x else x
    let r := addLimb w mb.head? carry
    let rest := addLoop diff xs mb.tail r.2
    (r.1 :: rest.1, rest.2)

/-- Zero extension of a limb list to `n` limbs (R162). -/
def extendTo (n : Nat) (m : List Limb) : List Limb := m ++ List.replicate (n - m.length) 0

/-- Add one carry bit into a limb list as an ordinary add-with-carry chain (R163). -/
def addCarry : List Limb → Bool → List Limb
  | [], _ => []
  | l :: m, c =>
    let sum := l.toNat + (carryLimb c).toNat
    BitVec.ofNat 64 sum :: addCarry m (decide (2 ^ 64 ≤ sum))

/-- Finalization when differencing: add 1 on a final carry, else complement every limb; then `canon`
(R163). -/
def finishDiff (r : List Limb) (carry : Bool) : List Limb :=
  canon (if carry then addCarry r true else r.map (fun l => ~~~l))

/-- Finalization when adding: a final carry appends a most significant limb of value 1 (R164). -/
def finishSum (r : List Limb) (carry : Bool) : List Limb := if carry then r ++ [1] else r

/-- The limbs of `AddCore` (R162 to R164). -/
def addMag (diff : Bool) (ma mb : List Limb) : List Limb :=
  let loop := addLoop diff (extendTo (max ma.length mb.length) ma) mb false
  if diff then finishDiff loop.1 loop.2 else finishSum loop.1 loop.2

/-- `AddCore(a, b, op)`: the sign of R161 and the limbs of R162 to R164 (R165). -/
def addCore (a b : BigReg) (op : OpSign) : BigReg :=
  ⟨resultSign a b op, addMag (differs a b op) a.mag b.mag⟩

/-- ADD: `R[rd] <- AddCore(R[ra], R[rb], +1)` (R167). -/
def execAdd (rd ra rb : Nat) (s : State) : Answer :=
  withLegal [rd, ra, rb] s (writeResult rd (addCore (s.reg ra) (s.reg rb) .plus) s)

/-- SUB: `R[rd] <- AddCore(R[ra], R[rb], -1)` (R168). -/
def execSub (rd ra rb : Nat) (s : State) : Answer :=
  withLegal [rd, ra, rb] s (writeResult rd (addCore (s.reg ra) (s.reg rb) .minus) s)

/-- NEG: `R[rd] <- AddCore(enc(0), R[ra], -1)`; no capacity check is needed (R169). -/
def execNeg (rd ra : Nat) (s : State) : Answer :=
  withLegal [rd, ra] s (
    succeed (s.writeReg rd (addCore (enc 0) (s.reg ra) .minus)))

end Sys2Proof.Machine
end

