-- ==== Sys2Proof/Machine/Multiplicative.lean ====
section
/-! DEFINITION. The Multiplicative Engine: MulCore by half-word products (spec 43_multiplicative.md
R190, R191) and the command MUL (R196). -/

namespace Sys2Proof.Machine

/-- `H(m, i)`, half-word `i` of a limb list: the high half of limb `i div 2` for odd `i`, the low half
for even `i` (R190). -/
def halfWord (m : List Limb) (i : Nat) : HalfWord :=
  let l := m[i / 2]?.getD 0
  if i % 2 = 1 then l.extractLsb' 32 32 else l.extractLsb' 0 32

/-- The product of two half-words, which fits one limb (R191, R192). -/
def halfProduct (ma mb : List Limb) (i j : Nat) : Limb :=
  (halfWord ma i).setWidth 64 * (halfWord mb j).setWidth 64

/-- Add `v` to limb `q` of an accumulator. No addition overflows the limb (R192; log 17). -/
def accumulate (acc : List Limb) (q : Nat) (v : Limb) : List Limb :=
  acc.set q (acc[q]?.getD 0 + v)

/-- The even-offset and the odd-offset accumulator of one outer pass (R191). -/
structure Accumulators where
  even : List Limb
  odd  : List Limb
deriving DecidableEq, Repr

/-- One inner step: the product of half-words `i` and `j` goes to one limb of `E` when `i + j` is
even, and straddles two limbs of `O` when it is odd (R191). -/
def mulInner (ma mb : List Limb) (i : Nat) (acc : Accumulators) (j : Nat) : Accumulators :=
  let p := halfProduct ma mb i j
  let q := (i + j) / 2
  if (i + j) % 2 = 0 then { acc with even := accumulate acc.even q p }
  else
    let low := (p.extractLsb' 0 32).setWidth 64 <<< 32
    let high := (p.extractLsb' 32 32).setWidth 64
    { acc with odd := accumulate (accumulate acc.odd q low) (q + 1) high }

/-- The accumulators after outer pass `i`, each of `na + nb` limbs (R191). -/
def mulAccumulators (ma mb : List Limb) (i : Nat) : Accumulators :=
  let zeros := List.replicate (ma.length + mb.length) 0
  (List.range (2 * mb.length)).foldl (mulInner ma mb i) ⟨zeros, zeros⟩

/-- One outer pass: both accumulators are added into the running result (R191). -/
def mulPass (ma mb : List Limb) (acc : BigReg) (i : Nat) : BigReg :=
  let e := mulAccumulators ma mb i
  addCore (addCore acc ⟨false, canon e.even⟩ .plus) ⟨false, canon e.odd⟩ .plus

/-- `MulCore(ma, mb)` (R191). -/
def mulCore (ma mb : List Limb) : List Limb :=
  ((List.range (2 * ma.length)).foldl (mulPass ma mb) (enc 0)).mag

/-- The product of two register values: the sign is the xor of the signs, and 0 for a zero product
(R194, R196). -/
def mulReg (a b : BigReg) : BigReg :=
  let m := mulCore a.mag b.mag
  ⟨if m = [0] then false else a.neg ^^ b.neg, m⟩

/-- MUL: `R[rd] <- R[ra] * R[rb]` (R196). -/
def execMul (rd ra rb : Nat) (s : State) : Answer :=
  withLegal [rd, ra, rb] s (writeResult rd (mulReg (s.reg ra) (s.reg rb)) s)

end Sys2Proof.Machine
end

