-- ==== Sys2Proof/Machine/Dispatch.lean ====
section
/-! DEFINITION. One arm for each command. -/

namespace Sys2Proof.Machine

def exec (i : Instr) (s : State) : Host.Outcome State Fault Refusal :=
  match i with
  | .ldi rd => Sys2Proof.Machine.execLdi rd s
  | .ldu rd => Sys2Proof.Machine.execLdu rd s
  | .mov rd ra => Sys2Proof.Machine.execMov rd ra s
  | .cmp ra rb => Sys2Proof.Machine.execCmp ra rb s
  | .cmpm ra rb => Sys2Proof.Machine.execCmpm ra rb s
  | .cmpu ra rb => Sys2Proof.Machine.execCmpu ra rb s
  | .rdlimb ra => Sys2Proof.Machine.execRdlimb ra s
  | .rdinfo ra => Sys2Proof.Machine.execRdinfo ra s
  | .parse rd => Sys2Proof.Machine.execParse rd s
  | .render ra => Sys2Proof.Machine.execRender ra s
  | .add rd ra rb => Sys2Proof.Machine.execAdd rd ra rb s
  | .sub rd ra rb => Sys2Proof.Machine.execSub rd ra rb s
  | .neg rd ra => Sys2Proof.Machine.execNeg rd ra s
  | .mul rd ra rb => Sys2Proof.Machine.execMul rd ra rb s

end Sys2Proof.Machine
end

