-- ==== Sys2Proof/Machine/HostBus.lean ====
section
/-! DEFINITION. The host's bus accesses: the register map (spec 20_memory.md R52, R53), the two halves of
a 64-bit register (R54), the TBUF window (R55, R61), and the forms that are no legal access (R51,
70_reset_and_hazards.md R240). -/

namespace Sys2Proof.Machine

/-- `PARAM0`: NREG in bits 7:0, the version in bits 15:8, LMAX in bits 31:16 (R41). -/
def param0 (p : Config.Params) : BusWord :=
  BitVec.ofNat 16 p.lmax ++ BitVec.ofNat 8 Config.version ++ BitVec.ofNat 8 p.nreg

/-- `PARAM1`: TBUF_SIZE (R42). -/
def param1 (p : Config.Params) : BusWord := BitVec.ofNat 32 p.tbufSize

/-- What an aligned offset names (R52). -/
inductive BusTarget where
  | cmd
  | status
  | argLo
  | argHi
  | resLo
  | resHi
  | param0
  | param1
  /-- The word of the TBUF window whose first byte is `TBUF[index]` (R55). -/
  | tbuf (index : Nat)
  | reserved
deriving DecidableEq, Repr

/-- The host register map, with a TBUF window of `size` bytes (R52). -/
def busTarget (size : Nat) (o : Offset) : BusTarget :=
  if o = 0x0000 then .cmd
  else if o = 0x0004 then .status
  else if o = 0x0008 then .argLo
  else if o = 0x000C then .argHi
  else if o = 0x0010 then .resLo
  else if o = 0x0014 then .resHi
  else if o = 0x0018 then .param0
  else if o = 0x001C then .param1
  else if 0x8000 ≤ o.toNat ∧ o.toNat < 0x8000 + size then .tbuf (o.toNat - 0x8000)
  else .reserved

/-- The low word of a 64-bit register, bits 31:0 (R54). -/
def lowWord (v : Limb) : BusWord := v.extractLsb' 0 32

/-- The high word of a 64-bit register, bits 63:32 (R54). -/
def highWord (v : Limb) : BusWord := v.extractLsb' 32 32

/-- `ARG[31:0] <- d` (R39, R54). -/
def State.writeArgLo (s : State) (d : BusWord) : State := { s with arg := highWord s.arg ++ d }

/-- `ARG[63:32] <- d` (R39, R54). -/
def State.writeArgHi (s : State) (d : BusWord) : State := { s with arg := d ++ lowWord s.arg }

/-- The bus word of four bytes: byte `j` is bits `8j+7:8j` (R55). -/
def State.windowWord (s : State) (index : Nat) : BusWord :=
  s.readByte (index + 3) ++ s.readByte (index + 2) ++ s.readByte (index + 1) ++ s.readByte index

/-- The four bytes of a bus word, byte 0 first (R55). -/
def wordBytes (d : BusWord) : List Byte :=
  [d.extractLsb' 0 8, d.extractLsb' 8 8, d.extractLsb' 16 8, d.extractLsb' 24 8]

/-- What a host read of a target returns (R37 to R42, R52, R53, R61). -/
def State.busRead (s : State) : BusTarget → BusWord
  | .cmd => 0
  | .status => s.statusWord
  | .argLo => lowWord s.arg
  | .argHi => highWord s.arg
  | .resLo => lowWord s.res
  | .resHi => highWord s.res
  | .param0 => Machine.param0 s.params
  | .param1 => Machine.param1 s.params
  | .tbuf index => if s.busy then 0 else s.windowWord index
  | .reserved => 0

/-- What a host write to a target does (R37 to R42, R52, R53, R61). -/
def State.busWrite (s : State) (d : BusWord) : BusTarget → State
  | .cmd => s.writeCmd d
  | .status => s.writeStatus d
  | .argLo => s.writeArgLo d
  | .argHi => s.writeArgHi d
  | .resLo | .resHi | .param0 | .param1 | .reserved => s
  | .tbuf index => if s.busy then s else s.memWrite index (wordBytes d)

/-- An access is a legal form when it is 32 bits wide at an offset with `A[1:0] = 0` (R51). -/
def legalAccess (bits : Nat) (o : Offset) : Bool := bits == 32 && o.extractLsb' 0 2 == 0#2

/-- A host access: refused while reset is applied (R240, U10) and when it is not an aligned 32-bit
access (R51, U9; log 9). -/
def hostAccess (bits : Nat) (o : Offset) (run : State → State) (s : State) : Answer :=
  if s.resetApplied then .refused .hostAccessDuringReset
  else if legalAccess bits o then .next (run s)
  else .refused .hostAccessForm

/-- A host read: the returned word is kept for the host, and nothing else changes (R60; log 6). -/
def hostRead (bits : Nat) (o : Offset) (s : State) : Answer :=
  hostAccess bits o (fun s => { s with readData := some (s.busRead (busTarget s.params.tbufSize o)) }) s

/-- A host write (R60). -/
def hostWrite (bits : Nat) (o : Offset) (d : BusWord) (s : State) : Answer :=
  hostAccess bits o (fun s => s.busWrite d (busTarget s.params.tbufSize o)) s

end Sys2Proof.Machine
end

