-- ==== Sys2Proof/Machine/Engine.lean ====
section
/-! DEFINITION. The engine's completion step and the effect of each input (spec
70_reset_and_hazards.md R240 to R244; log 4, log 5). -/

namespace Sys2Proof.Machine

/-- The engine's turn: the pending word is decoded and its command executed with the latched argument;
a word that is no command raises ILLEGAL (R76, R78, R243). With nothing pending the block is idle and
nothing changes (R225; log 5). -/
def engineTurn (s : State) : Answer :=
  match s.pend with
  | none => .next s
  | some p =>
    match decodeFor s.params.nreg p.cmd with
    | .ok i => exec i s
    | .error _ => raiseError .illegal s

/-- One input takes effect (R6, R51, R240, R243). -/
def runInput (i : Input) (s : State) : Answer :=
  match i with
  | .hostRead bits o => hostRead bits o s
  | .hostWrite bits o d => hostWrite bits o d s
  | .engine => engineTurn s
  | .applyReset => .next s.applyReset
  | .releaseReset => .next s.releaseReset

/-- One step: the next input takes effect; when no input is left, the engine takes its turn, so a
pending command completes (R244, R253; log 4, log 5). -/
def nextStep (s : State) : Answer :=
  match s.inputs with
  | [] => engineTurn s
  | i :: rest => runInput i { s with inputs := rest }

/-- The word is pending with the current `ARG`, and the engine moves next (log 7). -/
def State.placeCommand (s : State) (c : BusWord) : State :=
  { s with pend := some ⟨c, s.arg⟩, inputs := .engine :: s.inputs }

end Sys2Proof.Machine
end

