-- ==== Sys2Proof/Machine/Step.lean ====
section
/-! DEFINITION. The step function, and how a command word is put where the next step runs it. -/

namespace Sys2Proof.Machine

/-- One step of the block and its surroundings (spec 00_scope.md R6; log 4). -/
def step (s : State) : Host.Outcome State Fault Refusal := nextStep s

/-- The state in which the very next step completes the command word whose low `nbits` bits are `w`'s,
with the current `ARG` as its latched argument (R43, R242; log 7). -/
def State.withFetchWord (s : State) (nbits w : Nat) : State := s.placeCommand (tableWord nbits w)

end Sys2Proof.Machine
end

