-- ==== Sys2Proof/Machine/CodecReference.lean ====
section
/-! DEFINITION. The reference string procedures of the Decimal Codec (spec 41_decimal_codec.md R132,
R133, R138, R139). They are the source's derivation of the values that Codec computes directly; no
command result depends on them or on the chunk width `c` (R134; log 12). A digit string is a list of
digits, most significant first. -/

namespace Sys2Proof.Machine

/-- Leading zeros removed; an all-zero string becomes empty (R132, R133). -/
def dropZeros (ds : List Nat) : List Nat := ds.dropWhile (fun d => d == 0)

/-- `n` written in exactly `k` digits, zero-padded on the left (R133, R139). -/
def padDigits : Nat → Nat → List Nat
  | 0, _ => []
  | k + 1, n => padDigits k (n / 10) ++ [n % 10]

/-- The chunks of `c` digits of a string, left to right, the last one maybe shorter (R133). `bound`
bounds their number. -/
def chunksFrom (c : Nat) : Nat → List Nat → List (List Nat)
  | 0, _ => []
  | bound + 1, ds => if ds.isEmpty then [] else ds.take c :: chunksFrom c bound (ds.drop c)

/-- The chunks of `c` digits of a string (R133). -/
def chunks (c : Nat) (ds : List Nat) : List (List Nat) := chunksFrom c ds.length ds

/-- The scan of `StrDiv` over the chunks, from a partial remainder: the quotient digits, still padded,
and the last remainder (R133). -/
def strDivScan (q : Nat) : List (List Nat) → Nat → List Nat × Nat
  | [], r => ([], r)
  | ch :: rest, r =>
    let x := r * 10 ^ ch.length + decimalValue ch
    let tail := strDivScan q rest (x % q)
    (padDigits ch.length (x / q) ++ tail.1, tail.2)

/-- `StrDiv(D, q)` with chunk width `c`: the quotient without leading zeros, and the remainder (R133). -/
def strDiv (c : Nat) (ds : List Nat) (q : Nat) : List Nat × Nat :=
  let r := strDivScan q (chunks c ds) 0
  (dropZeros r.1, r.2)

/-- The loop of `ParseDigits`: two divisions by 2^32 give each limb (R132). `bound` bounds the number
of limbs. -/
def parseLoop (c : Nat) : Nat → List Nat → List Limb
  | 0, _ => []
  | bound + 1, ds =>
    if ds.isEmpty then []
    else
      let d0 := strDiv c ds (2 ^ 32)
      let d1 := strDiv c d0.1 (2 ^ 32)
      BitVec.ofNat 64 (d1.2 * 2 ^ 32 + d0.2) :: parseLoop c bound d1.1

/-- `ParseDigits(D)` with chunk width `c`; leading zeros are removed first (R132). -/
def parseDigits (c : Nat) (ds : List Nat) : List Limb :=
  let m := parseLoop c ds.length (dropZeros ds)
  canon (if m.isEmpty then [0] else m)

/-- The chunk loop of `StrAdd`, least significant chunk first: the sum's digits and the last carry
(R139). -/
def strAddScan (c : Nat) : List (List Nat × List Nat) → Nat → List Nat → List Nat × Nat
  | [], carry, out => (out, carry)
  | (x, y) :: rest, carry, out =>
    let sum := decimalValue x + decimalValue y + carry
    strAddScan c rest (sum / 10 ^ c) (padDigits c (sum % 10 ^ c) ++ out)

/-- Zeros on the left up to `len` digits (R139). -/
def padLeft (len : Nat) (ds : List Nat) : List Nat := List.replicate (len - ds.length) 0 ++ ds

/-- A digit string with leading zeros removed, `"0"` if nothing remains (R139). -/
def trimDigits (ds : List Nat) : List Nat :=
  if (dropZeros ds).isEmpty then [0] else dropZeros ds

/-- `StrAdd(x, y)` with chunk width `c` (R139). -/
def strAdd (c : Nat) (x y : List Nat) : List Nat :=
  let len := (max x.length y.length + c - 1) / c * c
  let pairs := (chunks c (padLeft len x)).zip (chunks c (padLeft len y))
  let r := strAddScan c pairs.reverse 0 []
  trimDigits (if r.2 = 1 then 1 :: r.1 else r.1)

/-- `x` doubled `k` times (R138). -/
def strDouble (c : Nat) : Nat → List Nat → List Nat
  | 0, x => x
  | k + 1, x => strDouble c k (strAdd c x x)

/-- `StrMul2e32(x)`: 32 doublings (R138). -/
def strMul2e32 (c : Nat) (x : List Nat) : List Nat := strDouble c 32 x

/-- `RenderDigits(m)` with chunk width `c`, from the most significant limb down (R138). -/
def renderDigits (c : Nat) : List Limb → List Nat
  | [] => [0]
  | l :: m => strAdd c (strMul2e32 c (strMul2e32 c (renderDigits c m))) (decimalDigits l.toNat)

end Sys2Proof.Machine
end

