-- ==== Sys2Proof/Machine/HostProgram.lean ====
section
/-! DEFINITION. What the spec says of a host's programs (spec 30_encoding.md R79 to R81, 40_limb_store.md
R111): the argument words of the operands, the bus accesses that issue a command, the pseudo-instructions
and the ordering tests. They are host software: no step of the block uses them. -/

namespace Sys2Proof.Machine

/-- The argument of `LDI rd, #v` (R79). -/
def ldiArg (v : Int) : Limb := BitVec.ofInt 64 v

/-- The argument `(len, off)` of `PARSE rd, #off, #len`, `len` in the upper half (R79). -/
def parseArg (off len : Nat) : Limb := BitVec.ofNat 32 len ++ BitVec.ofNat 32 off

/-- The argument of `RENDER ra, #off`: the upper half is 0 (R79). -/
def renderArg (off : Nat) : Limb := parseArg off 0

/-- The host's writes of both halves of `ARG`, the low one first (R80, step 2). -/
def argWrites (a : Limb) : List Input :=
  [.hostWrite 32 0x0008 (lowWord a), .hostWrite 32 0x000C (highWord a)]

/-- `issue X` (R80), as the accesses of a run in which each poll reads `STATUS` once: poll, write `ARG`
when the command has an argument, write `CMD`, and read `STATUS` after the engine's turn. -/
def issue (c : BusWord) (a : Option Limb) : List Input :=
  [.hostRead 32 0x0004] ++ (a.map argWrites).getD [] ++ [.hostWrite 32 0x0000 c, .engine, .hostRead 32 0x0004]

/-- The ordering relations of the source's operators (R111). -/
inductive Relation where
  | lt
  | le
  | gt
  | ge
  | eq
  | ne
deriving DecidableEq, Repr

/-- The host's test of `RES` after `CMP` (R111). -/
def Relation.test : Relation → Limb → Bool
  | .lt, r => r == 0xFFFFFFFFFFFFFFFF
  | .le, r => r != 1
  | .gt, r => r == 1
  | .ge, r => r != 0xFFFFFFFFFFFFFFFF
  | .eq, r => r == 0
  | .ne, r => r != 0

/-- The relation between two integers that the test stands for (R111). -/
def Relation.holds : Relation → Int → Int → Bool
  | .lt, a, b => decide (a < b)
  | .le, a, b => decide (a ≤ b)
  | .gt, a, b => decide (b < a)
  | .ge, a, b => decide (b ≤ a)
  | .eq, a, b => decide (a = b)
  | .ne, a, b => decide (a ≠ b)

/-- The pseudo-instructions (R81). `assign` has the length of its text, which the host has written to
`TBUF[0..len-1]` before. -/
inductive Pseudo where
  | clr (rd : Nat)
  | adda (rd rb : Nat)
  | suba (rd rb : Nat)
  | mula (rd rb : Nat)
  | nega (rd : Nat)
  | assign (rd len : Nat)
  | print (ra : Nat)
  | order (rel : Relation) (ra rb : Nat)
deriving DecidableEq, Repr

/-- The command of a pseudo-instruction, and the argument the host writes first, if any (R81). -/
def Pseudo.command : Pseudo → Instr × Option Limb
  | .clr rd        => (.ldi rd, some (ldiArg 0))
  | .adda rd rb    => (.add rd rd rb, none)
  | .suba rd rb    => (.sub rd rd rb, none)
  | .mula rd rb    => (.mul rd rd rb, none)
  | .nega rd       => (.neg rd rd, none)
  | .assign rd len => (.parse rd, some (parseArg 0 len))
  | .print ra      => (.render ra, some (renderArg 0))
  | .order _ ra rb => (.cmp ra rb, none)

end Sys2Proof.Machine
end

