-- ==== Sys2Proof/Safety.lean ====
section
/-! DEFINITION. What holds in every reachable state (spec 10_state.md R31, R32), which input lists the
host may offer (20_memory.md R51, 70_reset_and_hazards.md R240), and the words the statements use for
decimal text (41_decimal_codec.md R130, R131), register writers (10_state.md R34) and error causes
(60_exceptions.md R212). -/

namespace Sys2Proof.Machine

/-- The canonical form of a limb list: at least one limb, and the most significant one is nonzero
unless it is the only one (R31). -/
def canonicalMag (m : List Limb) : Bool :=
  decide (1 ≤ m.length) && (decide (m.length = 1) || m.getLast? != some 0)

/-- A register value is canonical and zero is positive (R31, R32); its length is not bounded here. -/
def BigReg.canonical (r : BigReg) : Bool := canonicalMag r.mag && !(r.neg && magValue r.mag == 0)

/-- A register value that a register file with `LMAX = lmax` may hold: canonical and at most `lmax`
limbs (R31, R32). -/
def BigReg.legal (lmax : Nat) (r : BigReg) : Bool := r.canonical && decide (r.mag.length ≤ lmax)

/-- What every reachable state satisfies: the parameters are in their legal range (R8), there are `NREG`
registers (R30), every register is legal (R31, R32), the text buffer's list is
in canonical form (log 3), and nothing is pending while reset is applied (R240). -/
def State.inv (s : State) : Bool :=
  s.params.legal && s.regs.length == s.params.nreg && s.regs.all (BigReg.legal s.params.lmax) &&
  Memory.wf s.params.tbufSize s.tbuf && !(s.resetApplied && s.pend.isSome)

/-- The inputs make no host access that the block refuses: every access is an aligned 32-bit access
(R51), and none is made while reset is applied (R240). The flag says whether reset is applied now. -/
def legalInputs : Bool → List Input → Bool
  | _, [] => true
  | applied, .hostRead bits o :: rest => !applied && legalAccess bits o && legalInputs applied rest
  | applied, .hostWrite bits o _ :: rest => !applied && legalAccess bits o && legalInputs applied rest
  | applied, .engine :: rest => legalInputs applied rest
  | _, .applyReset :: rest => legalInputs true rest
  | _, .releaseReset :: rest => legalInputs false rest

/-! ### Decimal text, as R130 and R131 write it -/

/-- A nonempty string of digit bytes, each 0x30 to 0x39 (R57, R130). -/
def digitBytes (ds : List Byte) : Bool :=
  ds != [] && ds.all (fun b => decide (48 ≤ b.toNat) && decide (b.toNat ≤ 57))

/-- A digit string with no leading zero but `"0"` itself (R137, R141). -/
def noLeadingZero (ds : List Byte) : Bool := ds == [0x30] || ds.head? != some 0x30

/-- The sum over `i < n` of `(d[i] - 0x30) * 10^(n-1-i)` (R131). -/
def digitSum : List Byte → Nat
  | [] => 0
  | d :: ds => (d.toNat - 48) * 10 ^ ds.length + digitSum ds

/-- A digit string with `'-'` before it when `neg` (R130). -/
def signedText (neg : Bool) (ds : List Byte) : List Byte := if neg then 0x2D :: ds else ds

/-- A natural number with a sign. -/
def signedValue (neg : Bool) (n : Nat) : Int := if neg then -(n : Int) else n

/-! ### Which commands write what (R34) and which errors they raise (R212) -/

/-- The register a command writes; none for the others (R34). -/
def destOf : Instr → Option Nat
  | .ldi rd | .ldu rd | .mov rd _ | .neg rd _ | .add rd _ _ | .sub rd _ _ | .mul rd _ _ | .parse rd => some rd
  | .cmp _ _ | .cmpm _ _ | .cmpu _ _ | .rdlimb _ | .rdinfo _ | .render _ => none

/-- The registers a command reads (R34). -/
def sourcesOf : Instr → List Nat
  | .ldi _ | .ldu _ | .parse _ => []
  | .mov _ ra | .neg _ ra | .rdlimb ra | .rdinfo ra | .render ra => [ra]
  | .add _ ra rb | .sub _ ra rb | .mul _ ra rb | .cmp ra rb | .cmpm ra rb | .cmpu ra rb => [ra, rb]

/-- A command that writes `RES` when it succeeds (R34, R40). -/
def writesRes : Instr → Bool
  | .cmp _ _ | .cmpm _ _ | .cmpu _ _ | .rdlimb _ | .rdinfo _ | .render _ => true
  | .ldi _ | .ldu _ | .mov _ _ | .neg _ _ | .add _ _ _ | .sub _ _ _ | .mul _ _ _ | .parse _ => false

/-- The codes a well-formed command can leave in `STATUS.ERR` (R212). -/
def errorsOf : Instr → List ErrCode
  | .parse _ => [.none, .range, .invalidFormat, .capacity]
  | .render _ => [.none, .range]
  | .add _ _ _ | .sub _ _ _ | .mul _ _ _ => [.none, .capacity]
  | .ldi _ | .ldu _ | .mov _ _ | .neg _ _ | .cmp _ _ | .cmpm _ _ | .cmpu _ _ | .rdlimb _ | .rdinfo _ => [.none]

/-! ### The parts every command rule shares -/

/-- For every `NREG`, a word with `(c & mask) = match` decodes to the command with the word's own fields,
or is rejected when one it uses is at or above `NREG`; and a word with the row's opcode that does not
match is rejected for a bit that must be 0: the Operands and Encoding parts of a command rule, and its
malformed words (R71, R73, R74, R75). -/
def rowDecodes (matchWord maskWord : BusWord) (command : Nat → Nat → Nat → Instr) : Prop :=
  ∀ (nreg : Nat) (c : BusWord),
    (c &&& maskWord = matchWord → decodeFor nreg c =
      let i := command (rdField c) (raField c) (rbField c)
      if i.wfFor nreg then .ok i else .error .registerIndex) ∧
    (c &&& 0xFF000000 = matchWord → c &&& maskWord ≠ matchWord → decodeFor nreg c = .error .mustBeZero)

/-- A used register field at or above `NREG` raises ILLEGAL, and nothing else changes: the ILLEGAL
entry of a command rule's Errors part (R14, R74). -/
def illegalOutside (i : Instr) (s : State) : Prop :=
  i.wfFor s.params.nreg = false → exec i s = .next { s with err := .illegal, pend := none }

end Sys2Proof.Machine
end

