-- ==== Sys2Proof/Certificates/Slice0/Obligations.lean ====
section
/-! DEFINITION. The statements for the provers, one for each rule or group of rules of the spec that says
what a command or the block does. A statement about a step names the input that comes next: the list of
inputs is the model's form of what the host, the engine and the reset input do (log 4). A state has its
own NREG, LMAX and TBUF_SIZE, so a statement about every state is about every value of them (R8, log 1);
where their legal range matters, the statement assumes it. -/

open Sys2Proof Sys2Proof.Machine

/-! ### Encoding (30_encoding.md) -/

/-- Decoding the word of a well-formed command gives the command back, at every register index and for
every NREG of the legal range (R8, R71, R75, R78, R82). -/
def Obligations.DecodeEncodeRoundTrip : Prop :=
  ∀ (nreg : Nat) (i : Instr), nreg ≤ 16 → i.wfFor nreg = true → decodeFor nreg (encode i) = .ok i

/-- A word that decodes is the word of its command, and the command is well-formed: no bit of a word
is dropped (R73, R74, R78). -/
def Obligations.EncodeDecodeRoundTrip : Prop :=
  ∀ (nreg : Nat) (c : BusWord) (i : Instr), decodeFor nreg c = .ok i → encode i = c ∧ i.wfFor nreg = true

/-- R75: a word selects a command when `(c & mask) = match`. Decoding accepts exactly the words that
select a row of the table, and exactly one row, the command's own. -/
def Obligations.DecodeAcceptsExactlyTheTableRows : Prop :=
  (∀ c : BusWord, (∃ i, decode c = .ok i) ↔ ∃ r ∈ opcodeTable, r.selects c = true) ∧
  (∀ (c : BusWord) (i : Instr), decode c = .ok i → opcodeTable.filter (fun r => r.selects c) = [i.row])

/-- R82: the word is `OPC, RD, RA, RB, 0x000`, and the rule's five examples, read both ways. -/
def Obligations.CommandWordIsItsFieldsInOrder : Prop :=
  (∀ (opc : BitVec 8) (rd ra rb : BitVec 4),
    encodeFields opc.toNat rd.toNat ra.toNat rb.toNat = opc ++ rd ++ ra ++ rb ++ 0x000#12) ∧
  encode (.add 2 0 1) = 0x20201000 ∧ decode 0x20201000 = .ok (.add 2 0 1) ∧
  encode (.mul 3 3 3) = 0x30333000 ∧ decode 0x30333000 = .ok (.mul 3 3 3) ∧
  encode (.cmp 4 5) = 0x04045000 ∧ decode 0x04045000 = .ok (.cmp 4 5) ∧
  encode (.ldi 7) = 0x01700000 ∧ decode 0x01700000 = .ok (.ldi 7) ∧
  encode (.render 9) = 0x11090000 ∧ decode 0x11090000 = .ok (.render 9)

/-- R76: a word with a reserved opcode raises ILLEGAL at completion and changes nothing else. -/
def Obligations.ReservedOpcodeRaisesIllegal : Prop :=
  ∀ (s : State) (c : BusWord) (A : Limb) (rest : List Input),
    s.pend = some ⟨c, A⟩ → s.inputs = .engine :: rest →
    (opcField c = 0x00 ∨ (0x09 ≤ opcField c ∧ opcField c ≤ 0x0F) ∨ (0x12 ≤ opcField c ∧ opcField c ≤ 0x1F) ∨
      (0x23 ≤ opcField c ∧ opcField c ≤ 0x2F) ∨ (0x31 ≤ opcField c ∧ opcField c ≤ 0xFF)) →
    step s = .next { s with inputs := rest, err := .illegal, pend := none }

/-- R73: a word whose opcode is a row's but which has a 1 in a bit the row requires to be 0 raises
ILLEGAL at completion, and nothing else changes. -/
def Obligations.NonzeroMustBeZeroBitRaisesIllegal : Prop :=
  ∀ (s : State) (c : BusWord) (A : Limb) (rest : List Input) (r : Row),
    s.pend = some ⟨c, A⟩ → s.inputs = .engine :: rest →
    r ∈ opcodeTable → c &&& 0xFF000000 = r.matchWord → c &&& r.maskWord ≠ r.matchWord →
    step s = .next { s with inputs := rest, err := .illegal, pend := none }

/-- R74: for a block with `nreg` registers, a word that a 16-register block would run is rejected when
a used field is at or above `nreg`; its completion, and the command itself, raises ILLEGAL and changes
nothing else; and with this hardware's 16 registers no word is rejected for its index. -/
def Obligations.RegisterIndexAtOrAboveNregRaisesIllegal : Prop :=
  (∀ (nreg : Nat) (c : BusWord) (i : Instr), decodeFor 16 c = .ok i → (∃ f ∈ i.used, nreg ≤ f) →
    decodeFor nreg c = .error .registerIndex) ∧
  (∀ (s : State) (p : Pending) (i : Instr), s.pend = some p → decodeFor 16 p.cmd = .ok i →
    (∃ f ∈ i.used, s.params.nreg ≤ f) → engineTurn s = .next { s with err := .illegal, pend := none }) ∧
  (∀ (i : Instr) (s : State), (∃ f ∈ i.used, s.params.nreg ≤ f) →
    exec i s = .next { s with err := .illegal, pend := none }) ∧
  (∀ c : BusWord, decode c ≠ .error .registerIndex)

/-! ### Steps, completion and errors (60_exceptions.md, 70_reset_and_hazards.md) -/

/-- A step runs the decoded command: when a word that decodes to `i` is pending and the engine moves
next, or no input is left, the step is `exec i`, with the engine's turn taken off the input list; and
so, with this hardware's NREG, is the step after `withFetchWord` (R78, R243; the input list is the model's, log 4, log 5, log 7). -/
def Obligations.StepRunsTheDecodedCommand : Prop :=
  (∀ (s : State) (c : BusWord) (A : Limb) (i : Instr) (rest : List Input),
    s.pend = some ⟨c, A⟩ → decodeFor s.params.nreg c = .ok i → s.inputs = .engine :: rest →
    step s = exec i { s with inputs := rest }) ∧
  (∀ (s : State) (c : BusWord) (A : Limb) (i : Instr),
    s.pend = some ⟨c, A⟩ → decodeFor s.params.nreg c = .ok i → s.inputs = [] → step s = exec i s) ∧
  (∀ (s : State) (w : Nat) (i : Instr), s.params.nreg = Config.hardware.nreg → decodeTableWord 32 w = some i →
    step (s.withFetchWord 32 w) = exec i { s with pend := some ⟨BitVec.ofNat 32 w, s.arg⟩ })

/-- The completion report: the engine's turn on any pending word, in any state, gives a next state, in
which at most the registers, RES, TBUF, STATUS.ERR and PEND have changed and PEND is empty
(R78, R210, R214). -/
def Obligations.EveryPendingWordCompletes : Prop :=
  ∀ (s : State) (p : Pending), s.pend = some p →
    ∃ t, engineTurn s = .next t ∧
      t = { s with regs := t.regs, res := t.res, tbuf := t.tbuf, err := t.err, pend := none }

/-- R14: a completion that leaves an error has changed no register, not RES and not the text buffer;
only STATUS.ERR holds the code, and the latch is empty. -/
def Obligations.ErrorChangesNoRegisterResOrText : Prop :=
  ∀ (s t : State) (p : Pending), s.pend = some p → engineTurn s = .next t → t.err ≠ .none →
    t = { s with err := t.err, pend := none }

/-- R212: the codes a well-formed command can leave: nine commands only NONE, PARSE also RANGE,
INVALID_FORMAT and CAPACITY, RENDER also RANGE, ADD, SUB and MUL also CAPACITY. -/
def Obligations.CommandRaisesOnlyItsListedErrors : Prop :=
  ∀ (i : Instr) (s t : State), i.wfFor s.params.nreg = true → exec i s = .next t → t.err ∈ errorsOf i

/-- Frame of the commands that write a register (LDI, LDU, MOV, NEG, ADD, SUB, MUL, PARSE): every other
register, RES, every byte of TBUF, ARG, OVR and the inputs are unchanged (R34, R36, R40, R67). -/
def Obligations.RegisterCommandFrame : Prop :=
  ∀ (i : Instr) (rd : Nat) (s t : State), destOf i = some rd → exec i s = .next t →
    (∀ j, j ≠ rd → t.reg j = s.reg j) ∧ (∀ a, t.readByte a = s.readByte a) ∧
    t = { s with regs := t.regs, err := t.err, pend := none }

/-- Frame of CMP, CMPM, CMPU, RDLIMB and RDINFO: every register, every byte of TBUF, ARG, OVR and the
inputs are unchanged (R34, R40, R67). -/
def Obligations.ComparisonAndObservationFrame : Prop :=
  ∀ (i : Instr) (s t : State), destOf i = none → (∀ ra, i ≠ .render ra) → exec i s = .next t →
    (∀ j, t.reg j = s.reg j) ∧ (∀ a, t.readByte a = s.readByte a) ∧
    t = { s with res := t.res, err := t.err, pend := none }

/-- Frame of RENDER: every register, ARG, OVR and the inputs are unchanged, and so is every byte of
TBUF outside `OFF..OFF+n-1`, with `OFF` the low word of the latched argument and `n` the length of the
rendered text; on an error every byte is unchanged (R34, R67, R140). -/
def Obligations.RenderFrame : Prop :=
  ∀ (ra : Nat) (s t : State), exec (.render ra) s = .next t →
    (∀ j, t.reg j = s.reg j) ∧
    (∀ a, (a < argOff s.latched ∨ argOff s.latched + (renderText (s.reg ra)).length ≤ a ∨ t.err ≠ .none) →
      t.readByte a = s.readByte a) ∧
    t = { s with res := t.res, tbuf := t.tbuf, err := t.err, pend := none }

/-- A command uses the copy of ARG made at accept: whatever the host writes to ARG while the command is
pending, the completion is the same (R39, R43, R249). -/
def Obligations.PendingCommandIgnoresLaterArgWrites : Prop :=
  ∀ (i : Instr) (s t : State) (p : Pending) (x : Limb), s.pend = some p → exec i s = .next t →
    exec i { s with arg := x } = .next { t with arg := x }

/-- What a command leaves depends only on its source registers, the latched argument and, for PARSE,
the bytes `TBUF[OFF..OFF+LEN-1]` (R34, R36, R67): two states of one block (the same parameters and number
of registers) that agree on those get the same error code, the same destination value, the same RES and,
for RENDER, the same bytes `TBUF[OFF..OFF+n-1]`. -/
def Obligations.CommandReadsOnlyItsSources : Prop :=
  ∀ (i : Instr) (s1 s2 t1 t2 : State), s1.params = s2.params → s1.regs.length = s2.regs.length →
    s1.latched = s2.latched →
    (∀ j ∈ sourcesOf i, s1.reg j = s2.reg j) →
    (∀ rd, i = .parse rd → ∀ a, argOff s1.latched ≤ a → a < argOff s1.latched + argLen s1.latched →
      s1.readByte a = s2.readByte a) →
    exec i s1 = .next t1 → exec i s2 = .next t2 →
    t1.err = t2.err ∧
    (t1.err = .none → (∀ rd, destOf i = some rd → t1.reg rd = t2.reg rd) ∧
      (writesRes i = true → t1.res = t2.res) ∧
      (∀ ra, i = .render ra → ∀ a, argOff s1.latched ≤ a →
        a < argOff s1.latched + (renderText (s1.reg ra)).length → t1.readByte a = t2.readByte a))

/-! ### Limb lists and register values (00_scope.md, 10_state.md) -/

/-- R16: `limbs(n)` is a canonical list with `mag = n`, of the length and with the limbs the rule gives;
no list with that magnitude and at least one limb is shorter; and `canon(m) = limbs(mag(m))`. -/
def Obligations.CanonIsTheShortestLimbList : Prop :=
  (∀ n : Nat, magValue (limbsOf n) = n ∧ canonicalMag (limbsOf n) = true ∧
    (limbsOf n).length = (if n = 0 then 1 else (n.log2 + 1 + 63) / 64) ∧
    ∀ k, k < (limbsOf n).length → (limbsOf n)[k]? = some (BitVec.ofNat 64 (n / 2 ^ (64 * k)))) ∧
  (∀ m : List Limb, m ≠ [] → (limbsOf (magValue m)).length ≤ m.length) ∧
  (∀ m : List Limb, canon m = limbsOf (magValue m))

/-- R32, for every legal LMAX: each integer `v` with `|v| < 2^(64*LMAX)` has exactly one representation that the register
file may hold, `enc(v)`. -/
def Obligations.EncIsTheOneRegisterRepresentation : Prop :=
  ∀ (lmax : Nat) (v : Int), 1 ≤ lmax → v.natAbs < 2 ^ (64 * lmax) →
    ∀ r : BigReg, (r.legal lmax = true ∧ r.val = v) ↔ r = enc v

/-! ### Limb Store commands (40_limb_store.md) -/

/-- R103, LDI: the signed value of the latched argument, one limb; zero is positive. -/
def Obligations.LdiLoadsTheSignedArgument : Prop :=
  rowDecodes 0x01000000 0xFF0FFFFF (fun rd _ _ => .ldi rd) ∧
  ∀ (rd : Nat) (s : State) (c : BusWord) (A : Limb), s.pend = some ⟨c, A⟩ →
    illegalOutside (.ldi rd) s ∧
    (rd < s.params.nreg →
      exec (.ldi rd) s =
        .next { s with regs := s.regs.set rd (enc A.toInt), err := .none, pend := none } ∧
      enc A.toInt = ⟨decide (A.toInt < 0), [BitVec.ofNat 64 A.toInt.natAbs]⟩)

/-- R104, LDU: the latched argument as an unsigned number, one limb, positive. -/
def Obligations.LduLoadsTheUnsignedArgument : Prop :=
  rowDecodes 0x02000000 0xFF0FFFFF (fun rd _ _ => .ldu rd) ∧
  ∀ (rd : Nat) (s : State) (c : BusWord) (A : Limb), s.pend = some ⟨c, A⟩ →
    illegalOutside (.ldu rd) s ∧
    (rd < s.params.nreg →
      exec (.ldu rd) s =
        .next { s with regs := s.regs.set rd ⟨false, [A]⟩, err := .none, pend := none } ∧
      (⟨false, [A]⟩ : BigReg) = enc A.toNat)

/-- R105, MOV: an independent copy; the source keeps its value, and a later write to one register does not
change the other. -/
def Obligations.MovCopiesTheRegister : Prop :=
  rowDecodes 0x03000000 0xFF00FFFF (fun rd ra _ => .mov rd ra) ∧
  ∀ (rd ra : Nat) (s : State), illegalOutside (.mov rd ra) s ∧
    (rd < s.params.nreg → ra < s.params.nreg → s.regs.length = s.params.nreg → ∃ t,
      exec (.mov rd ra) s = .next t ∧
      t = { s with regs := s.regs.set rd (s.reg ra), err := .none, pend := none } ∧
      t.reg rd = s.reg ra ∧ t.reg ra = s.reg ra ∧
      (rd ≠ ra → ∀ v, (t.writeReg ra v).reg rd = s.reg ra ∧ (t.writeReg rd v).reg ra = s.reg ra))

/-- R106, CMP: RES holds the code of `Compare(signed)`; on canonical registers it orders the values. -/
def Obligations.CmpOrdersSignedValues : Prop :=
  rowDecodes 0x04000000 0xFFF00FFF (fun _ ra rb => .cmp ra rb) ∧
  ∀ (ra rb : Nat) (s : State), illegalOutside (.cmp ra rb) s ∧
    (ra < s.params.nreg → rb < s.params.nreg →
      exec (.cmp ra rb) s =
        .next { s with res := compareCode (compareReg (s.reg ra) (s.reg rb) true), err := .none, pend := none } ∧
      ((s.reg ra).canonical = true → (s.reg rb).canonical = true →
        compareCode (compareReg (s.reg ra) (s.reg rb) true) =
          if (s.reg ra).val < (s.reg rb).val then 0xFFFFFFFFFFFFFFFF
          else if (s.reg ra).val = (s.reg rb).val then 0 else 1))

/-- R107, CMPM: RES holds the code of `CompareMag`; on canonical lists it orders the magnitudes. -/
def Obligations.CmpmOrdersMagnitudes : Prop :=
  rowDecodes 0x05000000 0xFFF00FFF (fun _ ra rb => .cmpm ra rb) ∧
  ∀ (ra rb : Nat) (s : State), illegalOutside (.cmpm ra rb) s ∧
    (ra < s.params.nreg → rb < s.params.nreg →
      exec (.cmpm ra rb) s =
        .next { s with res := compareCode (compareMag (s.reg ra).mag (s.reg rb).mag), err := .none, pend := none } ∧
      (canonicalMag (s.reg ra).mag = true → canonicalMag (s.reg rb).mag = true →
        compareCode (compareMag (s.reg ra).mag (s.reg rb).mag) =
          if magValue (s.reg ra).mag < magValue (s.reg rb).mag then 0xFFFFFFFFFFFFFFFF
          else if magValue (s.reg ra).mag = magValue (s.reg rb).mag then 0 else 1))

/-- R108, CMPU: RES holds the code of `Compare(unsigned)`; on canonical registers it orders the first
value against the second magnitude with the first one's sign. -/
def Obligations.CmpuOrdersWithTheFirstSign : Prop :=
  rowDecodes 0x06000000 0xFFF00FFF (fun _ ra rb => .cmpu ra rb) ∧
  ∀ (ra rb : Nat) (s : State), illegalOutside (.cmpu ra rb) s ∧
    (ra < s.params.nreg → rb < s.params.nreg →
      exec (.cmpu ra rb) s =
        .next { s with res := compareCode (compareReg (s.reg ra) (s.reg rb) false), err := .none, pend := none } ∧
      ((s.reg ra).canonical = true → (s.reg rb).canonical = true →
        compareCode (compareReg (s.reg ra) (s.reg rb) false) =
          if (s.reg ra).val < BigReg.val ⟨(s.reg ra).neg, (s.reg rb).mag⟩ then 0xFFFFFFFFFFFFFFFF
          else if (s.reg ra).val = BigReg.val ⟨(s.reg ra).neg, (s.reg rb).mag⟩ then 0 else 1))

/-- R111: after CMP on canonical registers each of the six tests of RES holds exactly when its relation
holds between the two values; and the first value is below the second exactly when their difference, as
SUB computes it, is negative. -/
def Obligations.OrderingTestsAfterCmp : Prop :=
  ∀ (ra rb : Nat) (s : State), ra < s.params.nreg → rb < s.params.nreg →
    (s.reg ra).canonical = true → (s.reg rb).canonical = true →
    (∃ t, exec (.cmp ra rb) s = .next t ∧
      ∀ rel : Relation, rel.test t.res = rel.holds (s.reg ra).val (s.reg rb).val) ∧
    (addCore (s.reg ra) (s.reg rb) .minus).neg = decide ((s.reg ra).val < (s.reg rb).val)

/-- R109, RDLIMB: RES holds limb `k = A`, all 64 bits of `A` counting, and 0 at or above LEN. As a
number it is bits `64k+63:64k` of the magnitude (R58). -/
def Obligations.RdlimbReadsOneLimb : Prop :=
  rowDecodes 0x07000000 0xFFF0FFFF (fun _ ra _ => .rdlimb ra) ∧
  ∀ (ra : Nat) (s : State) (c : BusWord) (A : Limb), s.pend = some ⟨c, A⟩ →
    illegalOutside (.rdlimb ra) s ∧
    (ra < s.params.nreg → ∃ v : Limb,
      exec (.rdlimb ra) s = .next { s with res := v, err := .none, pend := none } ∧
      (∀ h : A.toNat < (s.reg ra).mag.length, v = (s.reg ra).mag[A.toNat]) ∧
      ((s.reg ra).mag.length ≤ A.toNat → v = 0) ∧
      v.toNat = magValue (s.reg ra).mag / 2 ^ (64 * A.toNat) % 2 ^ 64)

/-- R110, RDINFO: RES holds the sign in bit 63, 0 in bits 62:32 and LEN in bits 31:0, which for a
register the file may hold is 1 to LMAX; zero reads 1, positive with one limb. -/
def Obligations.RdinfoReadsSignAndLength : Prop :=
  rowDecodes 0x08000000 0xFFF0FFFF (fun _ ra _ => .rdinfo ra) ∧
  ∀ (ra : Nat) (s : State), illegalOutside (.rdinfo ra) s ∧
    (ra < s.params.nreg → ∃ v : Limb,
      exec (.rdinfo ra) s = .next { s with res := v, err := .none, pend := none } ∧
      v.getLsbD 63 = (s.reg ra).neg ∧ v.extractLsb' 32 31 = 0 ∧
      (s.params.legal = true → (s.reg ra).legal s.params.lmax = true →
        (v.extractLsb' 0 32).toNat = (s.reg ra).mag.length ∧
        1 ≤ (s.reg ra).mag.length ∧ (s.reg ra).mag.length ≤ s.params.lmax ∧
        (magValue (s.reg ra).mag = 0 → v = 1)))

/-! ### Decimal Codec (41_decimal_codec.md) -/

/-- R130: a text is valid exactly when it is an optional `'-'` and then one or more digit bytes. -/
def Obligations.ValidTextIsOptionalMinusThenDigits : Prop :=
  ∀ t : List Byte, validText t = true ↔ ∃ (neg : Bool) (ds : List Byte), digitBytes ds = true ∧ t = signedText neg ds

/-- R131: the value of valid text is the digit sum, negated after a `'-'`. -/
def Obligations.ParseValueIsTheSignedDigitSum : Prop :=
  ∀ (neg : Bool) (ds : List Byte), digitBytes ds = true →
    parseValue (signedText neg ds) = enc (signedValue neg (digitSum ds))

/-- R132, R133, R134: the reference division in string space gives quotient and remainder, with no
partial value reaching 2^64, and the reference conversion gives the limbs of the number, for every
chunk width from 1 to 9. -/
def Obligations.ReferenceParsingGivesTheLimbs : Prop :=
  ∀ (c : Nat) (ds : List Nat), 1 ≤ c → c ≤ 9 → (∀ d ∈ ds, d < 10) →
    (∀ (r : Nat) (ch : List Nat), r < 2 ^ 32 → ch ∈ chunks c ds → r * 10 ^ ch.length + decimalValue ch < 2 ^ 64) ∧
    (decimalValue (strDiv c ds (2 ^ 32)).1 = decimalValue ds / 2 ^ 32 ∧ (strDiv c ds (2 ^ 32)).1.head? ≠ some 0 ∧
      (strDiv c ds (2 ^ 32)).2 = decimalValue ds % 2 ^ 32) ∧
    parseDigits c ds = limbsOf (decimalValue ds)

/-- R135, PARSE: the four outcomes in the order of R213. -/
def Obligations.ParseLoadsDecimalText : Prop :=
  rowDecodes 0x10000000 0xFF0FFFFF (fun rd _ _ => .parse rd) ∧
  ∀ (rd : Nat) (s : State) (c : BusWord) (A : Limb), s.pend = some ⟨c, A⟩ →
    let off := A.toNat % 2 ^ 32
    let len := A.toNat / 2 ^ 32
    let t := s.memRead off len
    illegalOutside (.parse rd) s ∧
    (rd < s.params.nreg →
      (s.params.tbufSize < off + len → exec (.parse rd) s = .next { s with err := .range, pend := none }) ∧
      (off + len ≤ s.params.tbufSize →
        (validText t = false → exec (.parse rd) s = .next { s with err := .invalidFormat, pend := none }) ∧
        (validText t = true → s.params.lmax < (parseValue t).mag.length →
          exec (.parse rd) s = .next { s with err := .capacity, pend := none }) ∧
        (validText t = true → (parseValue t).mag.length ≤ s.params.lmax →
          exec (.parse rd) s =
            .next { s with regs := s.regs.set rd (parseValue t), err := .none, pend := none })))

/-- R137: the rendered text is the decimal digits of the magnitude with no leading zero, after a `'-'`
when the sign is 1 and the magnitude is not 0. -/
def Obligations.RenderedTextIsTheDecimalText : Prop :=
  ∀ r : BigReg, ∃ ds : List Byte,
    renderText r = signedText (r.neg && decide (magValue r.mag ≠ 0)) ds ∧
    digitBytes ds = true ∧ noLeadingZero ds = true ∧ digitSum ds = magValue r.mag

/-- R9: with this hardware's values the text of any register value has at most 1235 bytes, so it fits `TBUF` at offset 0. -/
def Obligations.RenderedTextOfARegisterFitsTbuf : Prop :=
  ∀ r : BigReg, r.legal Config.hardware.lmax = true →
    magValue r.mag < 2 ^ 4096 ∧ (decimalDigits (magValue r.mag)).length ≤ 1234 ∧ (renderText r).length ≤ 1235 ∧
    (renderText r).length < Config.hardware.tbufSize

/-- R138, R139: for every chunk width from 1 to 18, the sum of two chunks and a carry stays below 2^64 and
its carry is 0 or 1; the reference addition in string space gives the sum, and the reference conversion
the decimal digits of the magnitude. -/
def Obligations.ReferenceRenderingGivesTheDigits : Prop :=
  ∀ c : Nat, 1 ≤ c → c ≤ 18 →
    (∀ (x y : List Nat) (carry : Nat), x.length = c → y.length = c → (∀ d ∈ x, d < 10) → (∀ d ∈ y, d < 10) →
      carry ≤ 1 → decimalValue x + decimalValue y + carry < 2 ^ 64 ∧
        (decimalValue x + decimalValue y + carry) / 10 ^ c ≤ 1) ∧
    (∀ x y : List Nat, (∀ d ∈ x, d < 10) → (∀ d ∈ y, d < 10) →
      strAdd c x y = decimalDigits (decimalValue x + decimalValue y)) ∧
    (∀ m : List Limb, renderDigits c m = decimalDigits (magValue m))

/-- R140, RENDER: the text is written at `OFF` and its length to RES when it fits; else RANGE, and
nothing is written. `A[63:32]` is ignored. -/
def Obligations.RenderWritesTheText : Prop :=
  rowDecodes 0x11000000 0xFFF0FFFF (fun _ ra _ => .render ra) ∧
  ∀ (ra : Nat) (s : State) (c : BusWord) (A : Limb), s.pend = some ⟨c, A⟩ →
    let off := A.toNat % 2 ^ 32
    let n := (renderText (s.reg ra)).length
    illegalOutside (.render ra) s ∧
    (ra < s.params.nreg →
      (s.params.tbufSize < off + n → exec (.render ra) s = .next { s with err := .range, pend := none }) ∧
      (off + n ≤ s.params.tbufSize → ∃ t, exec (.render ra) s = .next t ∧
        t.memRead off n = renderText (s.reg ra) ∧
        (∀ a, a < off ∨ off + n ≤ a → t.readByte a = s.readByte a) ∧
        t = { s with tbuf := t.tbuf, res := BitVec.ofNat 64 n, err := .none, pend := none }))

/-- R141, on texts and values: rendering the value of a canonical text gives the text back, and parsing
the text of a register value gives the value back. -/
def Obligations.ParseAndRenderAreInverse : Prop :=
  (∀ (neg : Bool) (ds : List Byte), digitBytes ds = true → noLeadingZero ds = true →
    ¬ (neg = true ∧ ds = [0x30]) → renderText (parseValue (signedText neg ds)) = signedText neg ds) ∧
  (∀ r : BigReg, r.canonical = true → validText (renderText r) = true ∧ parseValue (renderText r) = r)

/-- R141, on the block: RENDER of a register into TBUF and then PARSE of the rendered bytes into any
register gives the register's value back. -/
def Obligations.RenderThenParseRestoresTheRegister : Prop :=
  ∀ (ra rd : Nat) (s : State) (c c' : BusWord) (A : Limb), s.pend = some ⟨c, A⟩ →
    s.params.legal = true → s.regs.length = s.params.nreg →
    ra < s.params.nreg → rd < s.params.nreg → (s.reg ra).legal s.params.lmax = true →
    A.toNat % 2 ^ 32 + (renderText (s.reg ra)).length ≤ s.params.tbufSize →
    ∃ t u, exec (.render ra) s = .next t ∧ t.err = .none ∧
      exec (.parse rd) { t with pend := some ⟨c', BitVec.ofNat 32 t.res.toNat ++ A.extractLsb' 0 32⟩ } = .next u ∧
      u.err = .none ∧ u.reg rd = s.reg ra

/-! ### Additive Engine (42_additive.md) -/

/-- R165: for canonical operands the limb procedure of R160 to R164 computes `enc(val(a) + op*val(b))`. -/
def Obligations.AddCoreComputesTheSignedSum : Prop :=
  ∀ a b : BigReg, a.canonical = true → b.canonical = true →
    addCore a b .plus = enc (a.val + b.val) ∧ addCore a b .minus = enc (a.val - b.val)

/-- R167, ADD on canonical registers: the sum, or CAPACITY when it needs more than LMAX limbs. -/
def Obligations.AddWritesTheSum : Prop :=
  rowDecodes 0x20000000 0xFF000FFF (fun rd ra rb => .add rd ra rb) ∧
  ∀ (rd ra rb : Nat) (s : State), illegalOutside (.add rd ra rb) s ∧
    (s.params.legal = true → rd < s.params.nreg → ra < s.params.nreg → rb < s.params.nreg →
      (s.reg ra).canonical = true → (s.reg rb).canonical = true →
      (((s.reg ra).val + (s.reg rb).val).natAbs < 2 ^ (64 * s.params.lmax) →
        exec (.add rd ra rb) s =
          .next { s with regs := s.regs.set rd (enc ((s.reg ra).val + (s.reg rb).val)),
                         err := .none, pend := none }) ∧
      (2 ^ (64 * s.params.lmax) ≤ ((s.reg ra).val + (s.reg rb).val).natAbs →
        exec (.add rd ra rb) s = .next { s with err := .capacity, pend := none }))

/-- R168, SUB on canonical registers: the difference, or CAPACITY when it needs more than LMAX limbs. -/
def Obligations.SubWritesTheDifference : Prop :=
  rowDecodes 0x21000000 0xFF000FFF (fun rd ra rb => .sub rd ra rb) ∧
  ∀ (rd ra rb : Nat) (s : State), illegalOutside (.sub rd ra rb) s ∧
    (s.params.legal = true → rd < s.params.nreg → ra < s.params.nreg → rb < s.params.nreg →
      (s.reg ra).canonical = true → (s.reg rb).canonical = true →
      (((s.reg ra).val - (s.reg rb).val).natAbs < 2 ^ (64 * s.params.lmax) →
        exec (.sub rd ra rb) s =
          .next { s with regs := s.regs.set rd (enc ((s.reg ra).val - (s.reg rb).val)),
                         err := .none, pend := none }) ∧
      (2 ^ (64 * s.params.lmax) ≤ ((s.reg ra).val - (s.reg rb).val).natAbs →
        exec (.sub rd ra rb) s = .next { s with err := .capacity, pend := none }))

/-- R169, NEG on a canonical register: the negated value, of the same length, so never CAPACITY. -/
def Obligations.NegWritesTheNegation : Prop :=
  rowDecodes 0x22000000 0xFF00FFFF (fun rd ra _ => .neg rd ra) ∧
  ∀ (rd ra : Nat) (s : State), illegalOutside (.neg rd ra) s ∧
    (rd < s.params.nreg → ra < s.params.nreg → (s.reg ra).canonical = true →
      exec (.neg rd ra) s =
        .next { s with regs := s.regs.set rd (enc (-(s.reg ra).val)), err := .none, pend := none } ∧
      (enc (-(s.reg ra).val)).mag.length = (s.reg ra).mag.length)

/-! ### Multiplicative Engine (43_multiplicative.md) -/

/-- R190: `H(m, i)` is the high half of limb `i div 2` for odd `i` and the low half for even `i`, and the
magnitude is the sum over the half-words of `H(m, i) * 2^(32 i)`. -/
def Obligations.HalfWordsSumToTheMagnitude : Prop :=
  ∀ m : List Limb, (∀ i (h : i / 2 < m.length),
    (halfWord m i).toNat = if i % 2 = 1 then m[i / 2].toNat / 2 ^ 32 else m[i / 2].toNat % 2 ^ 32) ∧
    magValue m = ∑ i ∈ Finset.range (2 * m.length), (halfWord m i).toNat * 2 ^ (32 * i)

/-- R192: no accumulation overflows a limb. The product of two half-words is exact, and the two
accumulators of pass `i` hold exactly the sum over `j` of `H(ma, i) * H(mb, j) * 2^(32(i+j))`. -/
def Obligations.HalfWordAccumulationNeverOverflows : Prop :=
  ∀ (ma mb : List Limb) (i : Nat), i < 2 * ma.length →
    (∀ j, (halfProduct ma mb i j).toNat = (halfWord ma i).toNat * (halfWord mb j).toNat) ∧
    magValue (mulAccumulators ma mb i).even + magValue (mulAccumulators ma mb i).odd =
      ∑ j ∈ Finset.range (2 * mb.length), (halfWord ma i).toNat * (halfWord mb j).toNat * 2 ^ (32 * (i + j))

/-- R193: for canonical lists the half-word procedure computes `limbs(mag(ma) * mag(mb))`, of `na + nb - 1`
or `na + nb` limbs when neither is zero. -/
def Obligations.MulCoreComputesTheProduct : Prop :=
  ∀ ma mb : List Limb, canonicalMag ma = true → canonicalMag mb = true →
    mulCore ma mb = limbsOf (magValue ma * magValue mb) ∧
    (magValue ma ≠ 0 → magValue mb ≠ 0 →
      (mulCore ma mb).length = ma.length + mb.length - 1 ∨ (mulCore ma mb).length = ma.length + mb.length)

/-- R196, MUL on canonical registers: the product with the sign of R194, or CAPACITY when it needs more
than LMAX limbs. -/
def Obligations.MulWritesTheProduct : Prop :=
  rowDecodes 0x30000000 0xFF000FFF (fun rd ra rb => .mul rd ra rb) ∧
  ∀ (rd ra rb : Nat) (s : State), illegalOutside (.mul rd ra rb) s ∧
    (s.params.legal = true → rd < s.params.nreg → ra < s.params.nreg → rb < s.params.nreg →
      (s.reg ra).canonical = true → (s.reg rb).canonical = true →
      (((s.reg ra).val * (s.reg rb).val).natAbs < 2 ^ (64 * s.params.lmax) →
        exec (.mul rd ra rb) s =
          .next { s with regs := s.regs.set rd (enc ((s.reg ra).val * (s.reg rb).val)),
                         err := .none, pend := none }) ∧
      (2 ^ (64 * s.params.lmax) ≤ ((s.reg ra).val * (s.reg rb).val).natAbs →
        exec (.mul rd ra rb) s = .next { s with err := .capacity, pend := none }))

/-! ### The host interface (10_state.md, 20_memory.md, 70_reset_and_hazards.md) -/

/-- R242 and R216: a CMD write while nothing is pending latches the word and ARG and does nothing else,
whatever the word; while a command is pending the write is dropped and only OVR is set. -/
def Obligations.CommandWriteIsAcceptedOrDropped : Prop :=
  ∀ (s : State) (c : BusWord) (rest : List Input), s.resetApplied = false →
    s.inputs = .hostWrite 32 0x0000 c :: rest →
    (s.pend = none → step s = .next { s with inputs := rest, pend := some ⟨c, s.arg⟩ }) ∧
    (∀ p, s.pend = some p → step s = .next { s with inputs := rest, ovr := true })

/-- R80, the issue sequence: from an idle block the accesses of `issue` for a well-formed command, with or
without an argument, run that command with the argument latched, and the last read of STATUS finds
BUSY = 0 and the command's error code (the input list and the kept word are the model's, log 4, log 6). -/
def Obligations.IssueSequenceRunsTheCommand : Prop :=
  ∀ (i : Instr) (A : Option Limb) (s : State) (rest : List Input), i.wfFor s.params.nreg = true →
    s.params.nreg ≤ 16 → s.pend = none → s.resetApplied = false → s.inputs = issue (encode i) A ++ rest →
    ∃ (t : State) (w : BusWord),
      exec i { s with arg := A.getD s.arg, pend := some ⟨encode i, A.getD s.arg⟩ } = .next t ∧
      Sys2Proof.core.run (issue (encode i) A).length s = .next { t with inputs := rest, readData := some w } ∧
      w.getLsbD 0 = false ∧ w.extractLsb' 4 4 = t.err.code

/-- R38: STATUS reads BUSY in bit 0 (1 exactly when PEND is not empty, R43), OVR in bit 1, 0 in 3:2,
the code of ERR in 7:4 and 0 in 31:8; a write clears OVR when its bit 1 is 1 and changes nothing else. -/
def Obligations.StatusFieldsAndWriteOneToClear : Prop :=
  ∀ (s : State) (d : BusWord) (rest : List Input), s.resetApplied = false →
    (s.inputs = .hostRead 32 0x0004 :: rest → ∃ w : BusWord,
      step s = .next { s with inputs := rest, readData := some w } ∧
      (w.getLsbD 0 = true ↔ s.pend ≠ none) ∧ w.getLsbD 1 = s.ovr ∧ w.extractLsb' 2 2 = 0 ∧
      w.extractLsb' 4 4 = (match s.err with
        | .none => 0 | .invalidFormat => 1 | .capacity => 2 | .range => 3 | .illegal => 4) ∧
      w.extractLsb' 8 24 = 0) ∧
    (s.inputs = .hostWrite 32 0x0004 d :: rest →
      step s = .next { s with inputs := rest, ovr := s.ovr && !d.getLsbD 1 })

/-- R39 and R54: ARG is written and read as two words, bits 31:0 at 0x0008 and bits 63:32 at 0x000C,
each leaving the other half alone, pending command or not; RES reads as two words and ignores writes
(R40). -/
def Obligations.ArgAndResAreTwoBusWords : Prop :=
  ∀ (s : State) (d : BusWord) (rest : List Input), s.resetApplied = false →
    (s.inputs = .hostWrite 32 0x0008 d :: rest →
      step s = .next { s with inputs := rest, arg := s.arg.extractLsb' 32 32 ++ d }) ∧
    (s.inputs = .hostWrite 32 0x000C d :: rest →
      step s = .next { s with inputs := rest, arg := d ++ s.arg.extractLsb' 0 32 }) ∧
    (s.inputs = .hostRead 32 0x0008 :: rest →
      step s = .next { s with inputs := rest, readData := some (s.arg.extractLsb' 0 32) }) ∧
    (s.inputs = .hostRead 32 0x000C :: rest →
      step s = .next { s with inputs := rest, readData := some (s.arg.extractLsb' 32 32) }) ∧
    (s.inputs = .hostRead 32 0x0010 :: rest →
      step s = .next { s with inputs := rest, readData := some (s.res.extractLsb' 0 32) }) ∧
    (s.inputs = .hostRead 32 0x0014 :: rest →
      step s = .next { s with inputs := rest, readData := some (s.res.extractLsb' 32 32) }) ∧
    (s.inputs = .hostWrite 32 0x0010 d :: rest ∨ s.inputs = .hostWrite 32 0x0014 d :: rest →
      step s = .next { s with inputs := rest })

/-- R37, R41, R42, R52, R53: PARAM0 reads NREG in bits 7:0, the version 1 in bits 15:8 and LMAX in bits
31:16, and PARAM1 reads TBUF_SIZE, which is 0x00400110 and 0x00001000 on this hardware; CMD and every
reserved offset read 0; a write to a read-only register or a reserved offset has no effect. (A write to
CMD has one: CommandWriteIsAcceptedOrDropped.) -/
def Obligations.ConstantAndReservedOffsets : Prop :=
  (param0 Config.hardware = 0x00400110 ∧ param1 Config.hardware = 0x00001000) ∧
  ∀ (s : State) (o : Offset) (d : BusWord) (rest : List Input), s.params.legal = true → s.resetApplied = false →
    o.toNat % 4 = 0 →
    (s.inputs = .hostRead 32 o :: rest → ∃ w : BusWord,
      step s = .next { s with inputs := rest, readData := some w } ∧
      (o = 0x0018 → w = param0 s.params ∧ (w.extractLsb' 0 8).toNat = s.params.nreg ∧
        (w.extractLsb' 8 8).toNat = 1 ∧ (w.extractLsb' 16 16).toNat = s.params.lmax) ∧
      (o = 0x001C → w = param1 s.params ∧ w.toNat = s.params.tbufSize) ∧
      (o = 0x0000 ∨ (0x0020 ≤ o.toNat ∧ o.toNat ≤ 0x7FFC) ∨ 0x8000 + s.params.tbufSize ≤ o.toNat → w = 0)) ∧
    (s.inputs = .hostWrite 32 o d :: rest →
      (0x0010 ≤ o.toNat ∧ o.toNat ≤ 0x7FFC) ∨ 0x8000 + s.params.tbufSize ≤ o.toNat →
      step s = .next { s with inputs := rest })

/-- R55: while idle, the bus word at `0x8000 + 4k` is `TBUF[4k..4k+3]` in little-endian lanes; a write
sets all four bytes and no other byte, a read returns all four. -/
def Obligations.TbufWindowByteLanes : Prop :=
  ∀ (s : State) (k : Nat) (d : BusWord) (rest : List Input), s.params.legal = true → s.resetApplied = false →
    s.pend = none → k < s.params.tbufSize / 4 →
    (s.inputs = .hostWrite 32 (BitVec.ofNat 16 (0x8000 + 4 * k)) d :: rest → ∃ t, step s = .next t ∧
      t = { s with inputs := rest, tbuf := t.tbuf } ∧
      (∀ j, j < 4 → t.readByte (4 * k + j) = d.extractLsb' (8 * j) 8) ∧
      (∀ a, a < 4 * k ∨ 4 * k + 4 ≤ a → t.readByte a = s.readByte a)) ∧
    (s.inputs = .hostRead 32 (BitVec.ofNat 16 (0x8000 + 4 * k)) :: rest → ∃ w : BusWord,
      step s = .next { s with inputs := rest, readData := some w } ∧
      ∀ j, j < 4 → w.extractLsb' (8 * j) 8 = s.readByte (4 * k + j))

/-- R61: while a command is pending, a read of the TBUF window returns 0 and a write to it has no
effect, whichever command is pending. -/
def Obligations.TbufWindowIsLockedWhileBusy : Prop :=
  ∀ (s : State) (p : Pending) (k : Nat) (d : BusWord) (rest : List Input), s.params.legal = true → s.resetApplied = false →
    s.pend = some p → k < s.params.tbufSize / 4 →
    (s.inputs = .hostRead 32 (BitVec.ofNat 16 (0x8000 + 4 * k)) :: rest →
      step s = .next { s with inputs := rest, readData := some 0 }) ∧
    (s.inputs = .hostWrite 32 (BitVec.ofNat 16 (0x8000 + 4 * k)) d :: rest →
      step s = .next { s with inputs := rest })

/-- R51, R217, R240: a host access is refused exactly when it is not an aligned 32-bit access or reset
is applied; every other host access takes effect. Which name an access gets that is both is the
model's (log 9), and not stated. -/
def Obligations.OnlyProtocolViolationsAreRefused : Prop :=
  ∀ (s : State) (bits : Nat) (o : Offset) (d : BusWord) (rest : List Input),
    s.inputs = .hostRead bits o :: rest ∨ s.inputs = .hostWrite bits o d :: rest →
    (s.resetApplied = false → bits = 32 → o.toNat % 4 = 0 → ∃ t, step s = .next t) ∧
    (s.resetApplied = false → bits ≠ 32 ∨ o.toNat % 4 ≠ 0 → step s = .refused .hostAccessForm) ∧
    (s.resetApplied = true → bits = 32 → o.toNat % 4 = 0 → step s = .refused .hostAccessDuringReset) ∧
    (s.resetApplied = true → ∃ r, step s = .refused r)

/-- R60 and R247: a host read changes nothing in the block (the model keeps the returned word, log 6);
no host access changes a register, RES, STATUS.ERR or a pending command. -/
def Obligations.HostAccessFrame : Prop :=
  (∀ (s t : State) (bits : Nat) (o : Offset) (rest : List Input), s.inputs = .hostRead bits o :: rest →
    step s = .next t → t = { s with inputs := rest, readData := t.readData }) ∧
  (∀ (s t : State) (bits : Nat) (o : Offset) (d : BusWord) (rest : List Input),
    s.inputs = .hostWrite bits o d :: rest → step s = .next t →
    t.params = s.params ∧ t.regs = s.regs ∧ t.res = s.res ∧ t.err = s.err ∧ (∀ p, s.pend = some p → t.pend = some p) ∧
    t.tbufDraw = s.tbufDraw ∧ t.resetApplied = s.resetApplied ∧ t.readData = s.readData ∧ t.inputs = rest)

/-! ### Reset, invariants and progress -/

/-- R47, for every value of the parameters (R8): the state after reset. There are NREG registers and every
one is +0, nothing is pending, STATUS, ARG and RES are 0, PARAM0 and PARAM1 read the parameters, and every
TBUF byte is a free value, none of the model's choosing. This hardware's reset state is the one for its
values. -/
def Obligations.ResetStateValues : Prop :=
  (∀ p : Config.Params,
    (State.resetFor p).regs.length = p.nreg ∧ (∀ i, i < p.nreg → (State.resetFor p).regs[i]? = some (enc 0)) ∧
    (State.resetFor p).params = p ∧ (State.resetFor p).pend = none ∧ (State.resetFor p).busy = false ∧
    (State.resetFor p).ovr = false ∧ (State.resetFor p).err = .none ∧ (State.resetFor p).arg = 0 ∧
    (State.resetFor p).res = 0 ∧ (State.resetFor p).statusWord = 0 ∧
    (State.resetFor p).busRead .param0 = param0 p ∧ (State.resetFor p).busRead .param1 = param1 p ∧
    (∀ a, (State.resetFor p).readByte a = Config.freeTbufByte (State.resetFor p).tbufDraw a)) ∧
  enc 0 = ⟨false, [0]⟩ ∧ State.reset = State.resetFor ⟨16, 64, 4096⟩ ∧
  State.reset.busRead .param0 = 0x00400110 ∧ State.reset.busRead .param1 = 0x00001000

/-- R240: when reset is applied every piece of the block's state takes its reset value for the block's
parameters, whatever it held, and a pending command is discarded; the unwritten TBUF bytes are drawn anew (log 3), and the
host's own data and coming inputs stay (log 4, log 6). A release changes only the reset input. -/
def Obligations.ResetRestoresTheResetState : Prop :=
  ∀ (s : State) (rest : List Input),
    (s.inputs = .applyReset :: rest → ∃ n, s.tbufDraw < n ∧
      step s = .next { State.resetFor s.params with
        tbufDraw := n, resetApplied := true, readData := s.readData, inputs := rest }) ∧
    (s.inputs = .releaseReset :: rest → step s = .next { s with inputs := rest, resetApplied := false })

/-- The reset state meets the invariant, for all parameters in their legal range and so for this
hardware's (R8, R31, R32, R47; for the text buffer's list see log 3). -/
def Obligations.ResetStateMeetsTheInvariant : Prop :=
  (∀ p : Config.Params, p.legal = true → (State.resetFor p).inv = true) ∧ State.reset.inv = true

/-- Every step keeps the invariant and the parameters: the parameters are legal and never change (R8,
R41, R42), there are NREG registers, each one is canonical, at most LMAX limbs long and never -0 (R30, R31,
R32, R48), the text buffer's list keeps its canonical form (log 3), and nothing is pending while reset is
applied (R240). -/
def Obligations.StepKeepsTheInvariant : Prop :=
  ∀ s t : State, s.inv = true → step s = .next t → t.inv = true ∧ t.params = s.params

/-- R31 and R32, over every run of a block with any legal parameters: from the reset state, with any host
accesses, engine turns and resets, every register of every state reached is canonical, has 1 to LMAX limbs,
is positive when zero, and is the one representation of its value. -/
def Obligations.ReachableRegistersAreCanonical : Prop :=
  ∀ (p : Config.Params) (inputs : List Input) (k : Nat) (t : State) (i : Nat), p.legal = true →
    Sys2Proof.core.run k { State.resetFor p with inputs := inputs } = .next t → i < p.nreg →
    t.regs.length = p.nreg ∧
    1 ≤ (t.reg i).mag.length ∧ (t.reg i).mag.length ≤ p.lmax ∧
    ((t.reg i).mag.getLast? ≠ some 0 ∨ (t.reg i).mag.length = 1) ∧
    (magValue (t.reg i).mag = 0 → (t.reg i).neg = false) ∧
    (t.reg i).val.natAbs < 2 ^ (64 * p.lmax) ∧ t.reg i = enc (t.reg i).val

/-- R253, R244: a pending command completes. From any state whose coming inputs hold no protocol
violation, the run goes through all of them and one step later nothing is pending (that the engine moves
once no input is left is the model's reading of weak fairness, log 5). -/
def Obligations.PendingCommandCompletesAfterTheInputs : Prop :=
  ∀ s : State, legalInputs s.resetApplied s.inputs = true →
    ∃ t, Sys2Proof.core.run (s.inputs.length + 1) s = .next t ∧ t.pend = none ∧ t.inputs = []
end

