-- ==== Sys2Proof/Laws/Limbs.lean ====
section
/-! SUPPORT. The small laws of limb lists: how the magnitude of a list is put together, and its bound. -/

namespace Sys2Proof.Machine

@[simp] theorem magValue_nil : magValue [] = 0 := rfl

@[simp] theorem magValue_cons (l : Limb) (m : List Limb) :
    magValue (l :: m) = l.toNat + 2 ^ 64 * magValue m := rfl

theorem magValue_append (m n : List Limb) :
    magValue (m ++ n) = magValue m + 2 ^ (64 * m.length) * magValue n := by
  induction m with
  | nil => simp
  | cons l m ih =>
    simp only [List.cons_append, magValue_cons, List.length_cons, ih]
    rw [show 64 * (m.length + 1) = 64 + 64 * m.length by omega, pow_add]
    ring

@[simp] theorem magValue_replicate_zero (n : Nat) : magValue (List.replicate n 0#64) = 0 := by
  induction n with
  | zero => rfl
  | succ n ih => simp [List.replicate_succ, magValue_cons, ih]

theorem magValue_lt (m : List Limb) : magValue m < 2 ^ (64 * m.length) := by
  induction m with
  | nil => simp
  | cons l m ih =>
    simp only [magValue_cons, List.length_cons]
    rw [show 64 * (m.length + 1) = 64 + 64 * m.length by omega, pow_add]
    have h := l.isLt
    have : 2 ^ 64 * (magValue m + 1) ≤ 2 ^ 64 * 2 ^ (64 * m.length) := Nat.mul_le_mul_left _ ih
    omega

/-- Trimming keeps the magnitude. -/
theorem magValue_trimZeros (m : List Limb) : magValue (trimZeros m) = magValue m := by
  induction m with
  | nil => rfl
  | cons l m ih =>
    unfold trimZeros
    split
    · next h =>
      rw [h] at ih
      split
      · next hl => simp [hl, ← ih]
      · simp [← ih]
    · next h => rw [magValue_cons, magValue_cons l m, ← ih, h]

/-- The canonical form of a list has the list's magnitude (R16). -/
theorem magValue_canon (m : List Limb) : magValue (canon m) = magValue m := by
  cases m with
  | nil => simp [canon]
  | cons l m => simp [canon, magValue_trimZeros]

/-- Zero extension keeps the magnitude (R162). -/
theorem magValue_extendTo (n : Nat) (m : List Limb) : magValue (extendTo n m) = magValue m := by
  simp [extendTo, magValue_append]

/-- A list's zero extension to a length at or above its own has that length (R162). -/
theorem length_extendTo (n : Nat) (m : List Limb) (h : m.length ≤ n) : (extendTo n m).length = n := by
  simp [extendTo]; omega

/-- The loop gives one limb for each limb of the extended first operand (R162). -/
theorem length_addLoop (diff : Bool) (xs : List Limb) : ∀ (mb : List Limb) (carry : Bool),
    (addLoop diff xs mb carry).1.length = xs.length := by
  induction xs with
  | nil => intro mb carry; rfl
  | cons x xs ih => intro mb carry; simp [addLoop, ih]

end Sys2Proof.Machine
end

