-- ==== Sys2Proof/Laws/State.lean ====
section
/-! SUPPORT. What each named update of the state does to each field, true by rfl, so that no later proof
unfolds a record update. -/

namespace Sys2Proof.Machine

variable (s : State)


/-! ### writeByte -/

@[simp] theorem State.writeByte_regs (a : Nat) (b : Byte) : (s.writeByte a b).regs = s.regs := rfl
@[simp] theorem State.writeByte_params (a : Nat) (b : Byte) : (s.writeByte a b).params = s.params := rfl
@[simp] theorem State.writeByte_arg (a : Nat) (b : Byte) : (s.writeByte a b).arg = s.arg := rfl
@[simp] theorem State.writeByte_res (a : Nat) (b : Byte) : (s.writeByte a b).res = s.res := rfl
@[simp] theorem State.writeByte_ovr (a : Nat) (b : Byte) : (s.writeByte a b).ovr = s.ovr := rfl
@[simp] theorem State.writeByte_err (a : Nat) (b : Byte) : (s.writeByte a b).err = s.err := rfl
@[simp] theorem State.writeByte_pend (a : Nat) (b : Byte) : (s.writeByte a b).pend = s.pend := rfl
@[simp] theorem State.writeByte_tbuf (a : Nat) (b : Byte) : (s.writeByte a b).tbuf = Memory.write s.tbuf a b := rfl
@[simp] theorem State.writeByte_tbufDraw (a : Nat) (b : Byte) : (s.writeByte a b).tbufDraw = s.tbufDraw := rfl
@[simp] theorem State.writeByte_resetApplied (a : Nat) (b : Byte) : (s.writeByte a b).resetApplied = s.resetApplied := rfl
@[simp] theorem State.writeByte_readData (a : Nat) (b : Byte) : (s.writeByte a b).readData = s.readData := rfl
@[simp] theorem State.writeByte_inputs (a : Nat) (b : Byte) : (s.writeByte a b).inputs = s.inputs := rfl

/-! ### writeReg -/

@[simp] theorem State.writeReg_regs (i : Nat) (v : BigReg) : (s.writeReg i v).regs = s.regs.set i v := rfl
@[simp] theorem State.writeReg_params (i : Nat) (v : BigReg) : (s.writeReg i v).params = s.params := rfl
@[simp] theorem State.writeReg_arg (i : Nat) (v : BigReg) : (s.writeReg i v).arg = s.arg := rfl
@[simp] theorem State.writeReg_res (i : Nat) (v : BigReg) : (s.writeReg i v).res = s.res := rfl
@[simp] theorem State.writeReg_ovr (i : Nat) (v : BigReg) : (s.writeReg i v).ovr = s.ovr := rfl
@[simp] theorem State.writeReg_err (i : Nat) (v : BigReg) : (s.writeReg i v).err = s.err := rfl
@[simp] theorem State.writeReg_pend (i : Nat) (v : BigReg) : (s.writeReg i v).pend = s.pend := rfl
@[simp] theorem State.writeReg_tbuf (i : Nat) (v : BigReg) : (s.writeReg i v).tbuf = s.tbuf := rfl
@[simp] theorem State.writeReg_tbufDraw (i : Nat) (v : BigReg) : (s.writeReg i v).tbufDraw = s.tbufDraw := rfl
@[simp] theorem State.writeReg_resetApplied (i : Nat) (v : BigReg) : (s.writeReg i v).resetApplied = s.resetApplied := rfl
@[simp] theorem State.writeReg_readData (i : Nat) (v : BigReg) : (s.writeReg i v).readData = s.readData := rfl
@[simp] theorem State.writeReg_inputs (i : Nat) (v : BigReg) : (s.writeReg i v).inputs = s.inputs := rfl

/-! ### writeRes -/

@[simp] theorem State.writeRes_regs (v : Limb) : (s.writeRes v).regs = s.regs := rfl
@[simp] theorem State.writeRes_params (v : Limb) : (s.writeRes v).params = s.params := rfl
@[simp] theorem State.writeRes_arg (v : Limb) : (s.writeRes v).arg = s.arg := rfl
@[simp] theorem State.writeRes_res (v : Limb) : (s.writeRes v).res = v := rfl
@[simp] theorem State.writeRes_ovr (v : Limb) : (s.writeRes v).ovr = s.ovr := rfl
@[simp] theorem State.writeRes_err (v : Limb) : (s.writeRes v).err = s.err := rfl
@[simp] theorem State.writeRes_pend (v : Limb) : (s.writeRes v).pend = s.pend := rfl
@[simp] theorem State.writeRes_tbuf (v : Limb) : (s.writeRes v).tbuf = s.tbuf := rfl
@[simp] theorem State.writeRes_tbufDraw (v : Limb) : (s.writeRes v).tbufDraw = s.tbufDraw := rfl
@[simp] theorem State.writeRes_resetApplied (v : Limb) : (s.writeRes v).resetApplied = s.resetApplied := rfl
@[simp] theorem State.writeRes_readData (v : Limb) : (s.writeRes v).readData = s.readData := rfl
@[simp] theorem State.writeRes_inputs (v : Limb) : (s.writeRes v).inputs = s.inputs := rfl

/-! ### finish -/

@[simp] theorem State.finish_regs (code : ErrCode) : (s.finish code).regs = s.regs := rfl
@[simp] theorem State.finish_params (code : ErrCode) : (s.finish code).params = s.params := rfl
@[simp] theorem State.finish_arg (code : ErrCode) : (s.finish code).arg = s.arg := rfl
@[simp] theorem State.finish_res (code : ErrCode) : (s.finish code).res = s.res := rfl
@[simp] theorem State.finish_ovr (code : ErrCode) : (s.finish code).ovr = s.ovr := rfl
@[simp] theorem State.finish_err (code : ErrCode) : (s.finish code).err = code := rfl
@[simp] theorem State.finish_pend (code : ErrCode) : (s.finish code).pend = none := rfl
@[simp] theorem State.finish_tbuf (code : ErrCode) : (s.finish code).tbuf = s.tbuf := rfl
@[simp] theorem State.finish_tbufDraw (code : ErrCode) : (s.finish code).tbufDraw = s.tbufDraw := rfl
@[simp] theorem State.finish_resetApplied (code : ErrCode) : (s.finish code).resetApplied = s.resetApplied := rfl
@[simp] theorem State.finish_readData (code : ErrCode) : (s.finish code).readData = s.readData := rfl
@[simp] theorem State.finish_inputs (code : ErrCode) : (s.finish code).inputs = s.inputs := rfl

/-! ### writeArgLo -/

@[simp] theorem State.writeArgLo_regs (d : BusWord) : (s.writeArgLo d).regs = s.regs := rfl
@[simp] theorem State.writeArgLo_params (d : BusWord) : (s.writeArgLo d).params = s.params := rfl
@[simp] theorem State.writeArgLo_arg (d : BusWord) : (s.writeArgLo d).arg = highWord s.arg ++ d := rfl
@[simp] theorem State.writeArgLo_res (d : BusWord) : (s.writeArgLo d).res = s.res := rfl
@[simp] theorem State.writeArgLo_ovr (d : BusWord) : (s.writeArgLo d).ovr = s.ovr := rfl
@[simp] theorem State.writeArgLo_err (d : BusWord) : (s.writeArgLo d).err = s.err := rfl
@[simp] theorem State.writeArgLo_pend (d : BusWord) : (s.writeArgLo d).pend = s.pend := rfl
@[simp] theorem State.writeArgLo_tbuf (d : BusWord) : (s.writeArgLo d).tbuf = s.tbuf := rfl
@[simp] theorem State.writeArgLo_tbufDraw (d : BusWord) : (s.writeArgLo d).tbufDraw = s.tbufDraw := rfl
@[simp] theorem State.writeArgLo_resetApplied (d : BusWord) : (s.writeArgLo d).resetApplied = s.resetApplied := rfl
@[simp] theorem State.writeArgLo_readData (d : BusWord) : (s.writeArgLo d).readData = s.readData := rfl
@[simp] theorem State.writeArgLo_inputs (d : BusWord) : (s.writeArgLo d).inputs = s.inputs := rfl

/-! ### writeArgHi -/

@[simp] theorem State.writeArgHi_regs (d : BusWord) : (s.writeArgHi d).regs = s.regs := rfl
@[simp] theorem State.writeArgHi_params (d : BusWord) : (s.writeArgHi d).params = s.params := rfl
@[simp] theorem State.writeArgHi_arg (d : BusWord) : (s.writeArgHi d).arg = d ++ lowWord s.arg := rfl
@[simp] theorem State.writeArgHi_res (d : BusWord) : (s.writeArgHi d).res = s.res := rfl
@[simp] theorem State.writeArgHi_ovr (d : BusWord) : (s.writeArgHi d).ovr = s.ovr := rfl
@[simp] theorem State.writeArgHi_err (d : BusWord) : (s.writeArgHi d).err = s.err := rfl
@[simp] theorem State.writeArgHi_pend (d : BusWord) : (s.writeArgHi d).pend = s.pend := rfl
@[simp] theorem State.writeArgHi_tbuf (d : BusWord) : (s.writeArgHi d).tbuf = s.tbuf := rfl
@[simp] theorem State.writeArgHi_tbufDraw (d : BusWord) : (s.writeArgHi d).tbufDraw = s.tbufDraw := rfl
@[simp] theorem State.writeArgHi_resetApplied (d : BusWord) : (s.writeArgHi d).resetApplied = s.resetApplied := rfl
@[simp] theorem State.writeArgHi_readData (d : BusWord) : (s.writeArgHi d).readData = s.readData := rfl
@[simp] theorem State.writeArgHi_inputs (d : BusWord) : (s.writeArgHi d).inputs = s.inputs := rfl

/-! ### applyReset -/

@[simp] theorem State.applyReset_regs : (s.applyReset).regs = List.replicate s.params.nreg ⟨false, [0]⟩ := rfl
@[simp] theorem State.applyReset_params : (s.applyReset).params = s.params := rfl
@[simp] theorem State.applyReset_arg : (s.applyReset).arg = 0 := rfl
@[simp] theorem State.applyReset_res : (s.applyReset).res = 0 := rfl
@[simp] theorem State.applyReset_ovr : (s.applyReset).ovr = false := rfl
@[simp] theorem State.applyReset_err : (s.applyReset).err = .none := rfl
@[simp] theorem State.applyReset_pend : (s.applyReset).pend = none := rfl
@[simp] theorem State.applyReset_tbuf : (s.applyReset).tbuf = [] := rfl
@[simp] theorem State.applyReset_tbufDraw : (s.applyReset).tbufDraw = s.tbufDraw + 1 := rfl
@[simp] theorem State.applyReset_resetApplied : (s.applyReset).resetApplied = true := rfl
@[simp] theorem State.applyReset_readData : (s.applyReset).readData = s.readData := rfl
@[simp] theorem State.applyReset_inputs : (s.applyReset).inputs = s.inputs := rfl

/-! ### releaseReset -/

@[simp] theorem State.releaseReset_regs : (s.releaseReset).regs = s.regs := rfl
@[simp] theorem State.releaseReset_params : (s.releaseReset).params = s.params := rfl
@[simp] theorem State.releaseReset_arg : (s.releaseReset).arg = s.arg := rfl
@[simp] theorem State.releaseReset_res : (s.releaseReset).res = s.res := rfl
@[simp] theorem State.releaseReset_ovr : (s.releaseReset).ovr = s.ovr := rfl
@[simp] theorem State.releaseReset_err : (s.releaseReset).err = s.err := rfl
@[simp] theorem State.releaseReset_pend : (s.releaseReset).pend = s.pend := rfl
@[simp] theorem State.releaseReset_tbuf : (s.releaseReset).tbuf = s.tbuf := rfl
@[simp] theorem State.releaseReset_tbufDraw : (s.releaseReset).tbufDraw = s.tbufDraw := rfl
@[simp] theorem State.releaseReset_resetApplied : (s.releaseReset).resetApplied = false := rfl
@[simp] theorem State.releaseReset_readData : (s.releaseReset).readData = s.readData := rfl
@[simp] theorem State.releaseReset_inputs : (s.releaseReset).inputs = s.inputs := rfl

/-! ### placeCommand -/

@[simp] theorem State.placeCommand_regs (c : BusWord) : (s.placeCommand c).regs = s.regs := rfl
@[simp] theorem State.placeCommand_params (c : BusWord) : (s.placeCommand c).params = s.params := rfl
@[simp] theorem State.placeCommand_arg (c : BusWord) : (s.placeCommand c).arg = s.arg := rfl
@[simp] theorem State.placeCommand_res (c : BusWord) : (s.placeCommand c).res = s.res := rfl
@[simp] theorem State.placeCommand_ovr (c : BusWord) : (s.placeCommand c).ovr = s.ovr := rfl
@[simp] theorem State.placeCommand_err (c : BusWord) : (s.placeCommand c).err = s.err := rfl
@[simp] theorem State.placeCommand_pend (c : BusWord) : (s.placeCommand c).pend = some ⟨c, s.arg⟩ := rfl
@[simp] theorem State.placeCommand_tbuf (c : BusWord) : (s.placeCommand c).tbuf = s.tbuf := rfl
@[simp] theorem State.placeCommand_tbufDraw (c : BusWord) : (s.placeCommand c).tbufDraw = s.tbufDraw := rfl
@[simp] theorem State.placeCommand_resetApplied (c : BusWord) : (s.placeCommand c).resetApplied = s.resetApplied := rfl
@[simp] theorem State.placeCommand_readData (c : BusWord) : (s.placeCommand c).readData = s.readData := rfl
@[simp] theorem State.placeCommand_inputs (c : BusWord) : (s.placeCommand c).inputs = .engine :: s.inputs := rfl

/-! ### writeCmd and writeStatus -/

@[simp] theorem State.writeCmd_idle (c : BusWord) (h : s.pend = none) :
    s.writeCmd c = { s with pend := some ⟨c, s.arg⟩ } := by simp [State.writeCmd, h]
@[simp] theorem State.writeCmd_busy (c : BusWord) (p : Pending) (h : s.pend = some p) :
    s.writeCmd c = { s with ovr := true } := by simp [State.writeCmd, h]
theorem State.writeStatus_eq (d : BusWord) :
    s.writeStatus d = { s with ovr := s.ovr && !d.getLsbD 1 } := by
  unfold State.writeStatus
  cases h : d.getLsbD 1 <;> simp

/-! ### Reads -/

@[simp] theorem State.latched_pending (p : Pending) (h : s.pend = some p) : s.latched = p.arg := by
  simp [State.latched, h]
@[simp] theorem State.latched_idle (h : s.pend = none) : s.latched = s.arg := by
  simp [State.latched, h]
@[simp] theorem State.busy_pending (p : Pending) (h : s.pend = some p) : s.busy = true := by
  simp [State.busy, h]
@[simp] theorem State.busy_idle (h : s.pend = none) : s.busy = false := by simp [State.busy, h]

end Sys2Proof.Machine
end

