-- ==== Sys2Proof/Laws/Memory.lean ====
section
/-! SUPPORT. The laws of the text buffer: a read after a write, the frame of a write, and the canonical
form that every operation keeps. -/

namespace Sys2Proof.Machine

/-! ### One byte -/

theorem Memory.find_write_same (m : Memory) (a : Nat) (b : Byte) :
    Memory.find (Memory.write m a b) a = some b := by
  induction m with
  | nil => simp [Memory.write, Memory.find]
  | cons c cs ih =>
    unfold Memory.write
    split
    · simp [Memory.find]
    · split
      · simp [Memory.find]
      · next h => simp [Memory.find, Ne.symm h, ih]

theorem Memory.find_write_other (m : Memory) (a a' : Nat) (b : Byte) (h : a' ≠ a) :
    Memory.find (Memory.write m a b) a' = Memory.find m a' := by
  induction m with
  | nil => simp [Memory.write, Memory.find, Ne.symm h]
  | cons c cs ih =>
    unfold Memory.write
    split
    · simp [Memory.find, Ne.symm h]
    · split
      · next h2 => subst h2; simp [Memory.find, Ne.symm h]
      · simp only [Memory.find, ih]

@[simp] theorem State.readByte_writeByte_same (s : State) (a : Nat) (b : Byte) :
    (s.writeByte a b).readByte a = b := by
  simp [State.readByte, Memory.find_write_same]

theorem State.readByte_writeByte_other (s : State) (a a' : Nat) (b : Byte) (h : a' ≠ a) :
    (s.writeByte a b).readByte a' = s.readByte a' := by
  simp [State.readByte, Memory.find_write_other _ _ _ _ h, State.unwritten]

/-- A read depends on the written bytes and the draw alone. -/
theorem State.readByte_congr (s t : State) (hm : t.tbuf = s.tbuf) (hd : t.tbufDraw = s.tbufDraw) (a : Nat) :
    t.readByte a = s.readByte a := by
  simp [State.readByte, State.unwritten, hm, hd]

/-! ### A string of bytes -/

/-- A write of a byte string changes the text buffer's list alone. -/
theorem State.memWrite_eq (bs : List Byte) : ∀ (s : State) (a : Nat),
    s.memWrite a bs = { s with tbuf := (s.memWrite a bs).tbuf } := by
  induction bs with
  | nil => intro s a; rfl
  | cons b bs ih =>
    intro s a
    show (s.writeByte a b).memWrite (a + 1) bs = _
    rw [ih]
    rfl

theorem State.readByte_memWrite_outside (bs : List Byte) : ∀ (s : State) (a x : Nat),
    (x < a ∨ a + bs.length ≤ x) → (s.memWrite a bs).readByte x = s.readByte x := by
  induction bs with
  | nil => intro s a x _; rfl
  | cons b bs ih =>
    intro s a x h
    show ((s.writeByte a b).memWrite (a + 1) bs).readByte x = _
    simp only [List.length_cons] at h
    rw [ih _ _ _ (by omega), State.readByte_writeByte_other _ _ _ _ (by omega)]

theorem State.readByte_memWrite_inside (bs : List Byte) : ∀ (s : State) (a k : Nat) (h : k < bs.length),
    (s.memWrite a bs).readByte (a + k) = bs[k] := by
  induction bs with
  | nil => intro s a k h; simp at h
  | cons b bs ih =>
    intro s a k h
    show ((s.writeByte a b).memWrite (a + 1) bs).readByte (a + k) = _
    cases k with
    | zero => rw [State.readByte_memWrite_outside _ _ _ _ (by omega)]; simp
    | succ k =>
      have := ih (s.writeByte a b) (a + 1) k (by simpa using h)
      rw [show a + (k + 1) = a + 1 + k by omega, this]
      simp

/-- Reading back the bytes just written gives them. -/
theorem State.memRead_memWrite (s : State) (a : Nat) (bs : List Byte) :
    (s.memWrite a bs).memRead a bs.length = bs := by
  apply List.ext_getElem
  · simp [State.memRead]
  · intro k h1 h2
    simp [State.memRead, State.readByte_memWrite_inside bs s a k h2]

/-! ### The canonical form -/

theorem Memory.wfFrom_mono (size : Nat) (m : Memory) (lo lo' : Nat) (h : lo' ≤ lo) (hw : Memory.wfFrom size lo m = true) :
    Memory.wfFrom size lo' m = true := by
  cases m with
  | nil => rfl
  | cons c cs =>
    simp only [Memory.wfFrom, Bool.and_eq_true, decide_eq_true_eq] at hw ⊢
    exact ⟨⟨by omega, hw.1.2⟩, hw.2⟩

theorem Memory.wfFrom_write (size : Nat) (m : Memory) : ∀ (lo a : Nat) (b : Byte), lo ≤ a → a < size →
    Memory.wfFrom size lo m = true → Memory.wfFrom size lo (Memory.write m a b) = true := by
  induction m with
  | nil => intro lo a b h1 h2 _; simp [Memory.write, Memory.wfFrom, h1, h2]
  | cons c cs ih =>
    intro lo a b h1 h2 hw
    simp only [Memory.wfFrom, Bool.and_eq_true, decide_eq_true_eq] at hw
    unfold Memory.write
    split
    · simp only [Memory.wfFrom, Bool.and_eq_true, decide_eq_true_eq]
      exact ⟨⟨h1, h2⟩, ⟨⟨by omega, hw.1.2⟩, hw.2⟩⟩
    · split
      · next h3 =>
        simp only [Memory.wfFrom, Bool.and_eq_true, decide_eq_true_eq]
        exact ⟨⟨h1, h2⟩, by rw [h3]; exact hw.2⟩
      · simp only [Memory.wfFrom, Bool.and_eq_true, decide_eq_true_eq]
        exact ⟨hw.1, ih _ _ _ (by omega) h2 hw.2⟩

/-- Writing one byte inside `TBUF` keeps the canonical form. -/
theorem Memory.wf_write (size : Nat) (m : Memory) (a : Nat) (b : Byte) (h : a < size) (hw : Memory.wf size m = true) :
    Memory.wf size (Memory.write m a b) = true := Memory.wfFrom_write size m 0 a b (Nat.zero_le _) h hw

/-- Writing a byte string inside `TBUF` keeps the canonical form. -/
theorem State.wf_memWrite (size : Nat) (bs : List Byte) : ∀ (s : State) (a : Nat), a + bs.length ≤ size →
    Memory.wf size s.tbuf = true → Memory.wf size (s.memWrite a bs).tbuf = true := by
  induction bs with
  | nil => intro s a _ hw; exact hw
  | cons b bs ih =>
    intro s a h hw
    simp only [List.length_cons] at h
    exact ih (s.writeByte a b) (a + 1) (by omega) (Memory.wf_write _ _ _ _ (by omega) hw)

theorem State.wf_resetFor (p : Config.Params) : Memory.wf p.tbufSize (State.resetFor p).tbuf = true := rfl

end Sys2Proof.Machine
end

