-- ==== Sys2Proof/Laws/Ops.lean ====
section
/-! SUPPORT. What each shared operation of the commands can answer, said once. -/

namespace Sys2Proof.Machine

/-! ### Register accesses (R36) -/

theorem State.reg_writeReg_same (s : State) (i : Nat) (v : BigReg) (h : i < s.regs.length) :
    (s.writeReg i v).reg i = v := by
  simp [State.reg, h]

theorem State.reg_writeReg_other (s : State) (i j : Nat) (v : BigReg) (h : j ≠ i) :
    (s.writeReg i v).reg j = s.reg j := by
  simp only [State.reg, State.writeReg_regs]
  rw [List.getElem?_set_ne (Ne.symm h)]

@[simp] theorem State.reg_finish (s : State) (code : ErrCode) (j : Nat) : (s.finish code).reg j = s.reg j := rfl
@[simp] theorem State.reg_writeRes (s : State) (v : Limb) (j : Nat) : (s.writeRes v).reg j = s.reg j := rfl
@[simp] theorem State.readByte_finish (s : State) (code : ErrCode) (a : Nat) :
    (s.finish code).readByte a = s.readByte a := rfl
@[simp] theorem State.readByte_writeRes (s : State) (v : Limb) (a : Nat) :
    (s.writeRes v).readByte a = s.readByte a := rfl
@[simp] theorem State.readByte_writeReg (s : State) (i : Nat) (v : BigReg) (a : Nat) :
    (s.writeReg i v).readByte a = s.readByte a := rfl

/-! ### Completion (R14, R214) -/

theorem succeed_eq (s : State) : succeed s = .next { s with err := .none, pend := none } := rfl

theorem raiseError_eq (code : ErrCode) (s : State) :
    raiseError code s = .next { s with err := code, pend := none } := rfl

/-- The two answers of a register result: CAPACITY, or the value written (R166, R195). -/
theorem writeResult_capacity (rd : Nat) (v : BigReg) (s : State) (h : s.params.lmax < v.mag.length) :
    writeResult rd v s = .next { s with err := .capacity, pend := none } := by
  unfold writeResult
  rw [if_pos h]
  rfl

theorem writeResult_fits (rd : Nat) (v : BigReg) (s : State) (h : v.mag.length ≤ s.params.lmax) :
    writeResult rd v s = .next { s with regs := s.regs.set rd v, err := .none, pend := none } := by
  unfold writeResult
  rw [if_neg (by omega)]
  rfl

/-- The register check passes or the command raises ILLEGAL (R74). -/
theorem withLegal_legal (used : List Nat) (s : State) (answer : Answer) (h : indexesLegal s.params.nreg used = true) :
    withLegal used s answer = answer := by simp [withLegal, h]

theorem withLegal_illegal (used : List Nat) (s : State) (answer : Answer) (h : indexesLegal s.params.nreg used = false) :
    withLegal used s answer = .next { s with err := .illegal, pend := none } := by
  simp [withLegal, h, raiseError_eq]

@[simp] theorem indexesLegal_nil (nreg : Nat) : indexesLegal nreg [] = true := rfl

@[simp] theorem indexesLegal_cons (nreg i : Nat) (used : List Nat) :
    indexesLegal nreg (i :: used) = (decide (i < nreg) && indexesLegal nreg used) := rfl

end Sys2Proof.Machine
end

