-- ==== Sys2Proof/Laws/PerInstr.lean ====
section
/-! SUPPORT. Statements made for each command: the encoded word has the command's opcode in bits 31:24
(spec 30_encoding.md R71, R75). -/

namespace Sys2Proof.Laws

/-- The opcode field of four register fields that fit their four bits. -/
theorem opcField_encodeFields (opc rd ra rb : Nat) (h0 : opc < 256) (h1 : rd < 16) (h2 : ra < 16) (h3 : rb < 16) :
    opcField (encodeFields opc rd ra rb) = opc := by
  simp only [opcField, encodeFields, BitVec.toNat_ofNat]
  omega

end Sys2Proof.Laws

namespace Sys2Proof.Laws.EncodeOpcode

/-- The opcode field of a well-formed command's word is the opcode of its table row (R75). -/
def Statement (i : Instr) : Prop :=
  i.wf = true → opcField (encode i) = i.row.matchWord.toNat / 2 ^ 24

theorem ldi (rd : Nat) : Statement (.ldi rd) := by
  intro h
  simp [Instr.wf, Instr.wfFor, indexesLegal, Instr.used] at h
  rw [encode, opcField_encodeFields] <;> first | omega | simp [Instr.row]

theorem ldu (rd : Nat) : Statement (.ldu rd) := by
  intro h
  simp [Instr.wf, Instr.wfFor, indexesLegal, Instr.used] at h
  rw [encode, opcField_encodeFields] <;> first | omega | simp [Instr.row]

theorem mov (rd ra : Nat) : Statement (.mov rd ra) := by
  intro h
  simp [Instr.wf, Instr.wfFor, indexesLegal, Instr.used] at h
  rw [encode, opcField_encodeFields] <;> first | omega | simp [Instr.row]

theorem cmp (ra rb : Nat) : Statement (.cmp ra rb) := by
  intro h
  simp [Instr.wf, Instr.wfFor, indexesLegal, Instr.used] at h
  rw [encode, opcField_encodeFields] <;> first | omega | simp [Instr.row]

theorem cmpm (ra rb : Nat) : Statement (.cmpm ra rb) := by
  intro h
  simp [Instr.wf, Instr.wfFor, indexesLegal, Instr.used] at h
  rw [encode, opcField_encodeFields] <;> first | omega | simp [Instr.row]

theorem cmpu (ra rb : Nat) : Statement (.cmpu ra rb) := by
  intro h
  simp [Instr.wf, Instr.wfFor, indexesLegal, Instr.used] at h
  rw [encode, opcField_encodeFields] <;> first | omega | simp [Instr.row]

theorem rdlimb (ra : Nat) : Statement (.rdlimb ra) := by
  intro h
  simp [Instr.wf, Instr.wfFor, indexesLegal, Instr.used] at h
  rw [encode, opcField_encodeFields] <;> first | omega | simp [Instr.row]

theorem rdinfo (ra : Nat) : Statement (.rdinfo ra) := by
  intro h
  simp [Instr.wf, Instr.wfFor, indexesLegal, Instr.used] at h
  rw [encode, opcField_encodeFields] <;> first | omega | simp [Instr.row]

theorem parse (rd : Nat) : Statement (.parse rd) := by
  intro h
  simp [Instr.wf, Instr.wfFor, indexesLegal, Instr.used] at h
  rw [encode, opcField_encodeFields] <;> first | omega | simp [Instr.row]

theorem render (ra : Nat) : Statement (.render ra) := by
  intro h
  simp [Instr.wf, Instr.wfFor, indexesLegal, Instr.used] at h
  rw [encode, opcField_encodeFields] <;> first | omega | simp [Instr.row]

theorem add (rd ra rb : Nat) : Statement (.add rd ra rb) := by
  intro h
  simp [Instr.wf, Instr.wfFor, indexesLegal, Instr.used] at h
  rw [encode, opcField_encodeFields] <;> first | omega | simp [Instr.row]

theorem sub (rd ra rb : Nat) : Statement (.sub rd ra rb) := by
  intro h
  simp [Instr.wf, Instr.wfFor, indexesLegal, Instr.used] at h
  rw [encode, opcField_encodeFields] <;> first | omega | simp [Instr.row]

theorem neg (rd ra : Nat) : Statement (.neg rd ra) := by
  intro h
  simp [Instr.wf, Instr.wfFor, indexesLegal, Instr.used] at h
  rw [encode, opcField_encodeFields] <;> first | omega | simp [Instr.row]

theorem mul (rd ra rb : Nat) : Statement (.mul rd ra rb) := by
  intro h
  simp [Instr.wf, Instr.wfFor, indexesLegal, Instr.used] at h
  rw [encode, opcField_encodeFields] <;> first | omega | simp [Instr.row]

end Sys2Proof.Laws.EncodeOpcode
end

