-- ==== Sys2Proof/Laws/Step.lean ====
section
/-! SUPPORT. What a step can do, said once: the cases of the engine's turn, of a host access and of the
next input. -/

namespace Sys2Proof.Machine

/-- The engine's turn: idle, a command, or a word that is no command. -/
theorem engineTurn_idle (s : State) (h : s.pend = none) : engineTurn s = .next s := by
  simp [engineTurn, h]

theorem engineTurn_command (s : State) (p : Pending) (i : Instr) (h : s.pend = some p)
    (hd : decodeFor s.params.nreg p.cmd = .ok i) : engineTurn s = exec i s := by
  simp [engineTurn, h, hd]

theorem engineTurn_rejected (s : State) (p : Pending) (e : Reject) (h : s.pend = some p)
    (hd : decodeFor s.params.nreg p.cmd = .error e) : engineTurn s = .next { s with err := .illegal, pend := none } := by
  simp [engineTurn, h, hd, raiseError_eq]

/-- The step with no input left is the engine's turn. -/
theorem step_no_input (s : State) (h : s.inputs = []) : step s = engineTurn s := by
  simp [step, nextStep, h]

/-- The step with an input is that input's effect, with the input taken off the list. -/
theorem step_input (s : State) (i : Input) (rest : List Input) (h : s.inputs = i :: rest) :
    step s = runInput i { s with inputs := rest } := by
  simp [step, nextStep, h]

/-- A host access has a next state exactly when it is legal and reset is released. -/
theorem hostAccess_next (bits : Nat) (o : Offset) (run : State → State) (s t : State) :
    hostAccess bits o run s = .next t ↔
      s.resetApplied = false ∧ legalAccess bits o = true ∧ t = run s := by
  unfold hostAccess
  cases s.resetApplied <;> cases legalAccess bits o <;> simp [eq_comm]

end Sys2Proof.Machine
end

