-- ==== Sys2Proof/Tests/Slice0.lean ====
section
/-! SUPPORT. The author's tests. The expected results are the spec's own vectors (95_test_vectors.md) and
encodings (30_encoding.md R75, R82); each comment names its source. The last part shows, for every
statement that has hypotheses, a concrete case that meets them. -/

namespace Sys2Proof.Tests

open Sys2Proof.Machine

/-! ### Helpers -/

/-- The next state, if there is one. -/
def nextOf : Answer → Option State
  | .next t => some t
  | _ => none

/-- The reset state with some registers set. -/
def withRegs (l : List (Nat × BigReg)) : State := l.foldl (fun s p => s.writeReg p.1 p.2) State.reset

/-- A state with a text at the start of TBUF. -/
def withText (s : State) (t : List Byte) : State := s.memWrite 0 t

/-- The step that completes word `c` with argument `A`. -/
def complete (s : State) (c : BusWord) (A : Limb) : Option State :=
  nextOf (step ({ s with arg := A }.withFetchWord 32 c.toNat))

/-- A register and the error code after completing a word. -/
def regAfter (s : State) (c : BusWord) (A : Limb) (i : Nat) : Option (BigReg × ErrCode) :=
  (complete s c A).map (fun t => (t.reg i, t.err))

/-- RES and the error code after completing a word. -/
def resAfter (s : State) (c : BusWord) (A : Limb) : Option (Limb × ErrCode) :=
  (complete s c A).map (fun t => (t.res, t.err))

/-- The state after some inputs. -/
def after : List Input → State → Option State
  | [], s => some s
  | i :: rest, s => (nextOf (step { s with inputs := [i] })).bind (after rest)

/-- The word a host read returns after some inputs. -/
def readAfter (l : List Input) (s : State) : Option BusWord := (after l s).bind (fun t => t.readData)

/-- `5`, `-5`, `2^64 - 1`, `2^64`, and the largest register value. -/
def five : BigReg := ⟨false, [5]⟩
def minusFive : BigReg := ⟨true, [5]⟩
def allOnes : BigReg := ⟨false, [0xFFFFFFFFFFFFFFFF]⟩
def twoTo64 : BigReg := ⟨false, [0, 1]⟩
def largest : BigReg := ⟨false, List.replicate 64 0xFFFFFFFFFFFFFFFF⟩

/-! ### Well-formedness: one ill-formed term for the check in each field (R74) -/

theorem test_wf_rd_too_large : (Instr.add 16 0 0).wf = false := by decide
theorem test_wf_ra_too_large : (Instr.render 16).wf = false := by decide
theorem test_wf_rb_too_large : (Instr.cmp 0 16).wf = false := by decide
theorem test_wf_largest_indexes : (Instr.mul 15 15 15).wf = true := by decide

/-! ### Decoding: a word of each row, bits from the table's encoding column (R75, R82, 95 part 2) -/

theorem test_decode_ldi : decode 0b00000001011100000000000000000000 = .ok (.ldi 7) := by decide
theorem test_decode_ldu : decode 0b00000010000100000000000000000000 = .ok (.ldu 1) := by decide
theorem test_decode_mov : decode 0b00000011000101000000000000000000 = .ok (.mov 1 4) := by decide
theorem test_decode_cmp : decode 0b00000100000001000101000000000000 = .ok (.cmp 4 5) := by decide
theorem test_decode_cmpm : decode 0b00000101000000110001000000000000 = .ok (.cmpm 3 1) := by decide
theorem test_decode_cmpu : decode 0b00000110000011110001000000000000 = .ok (.cmpu 15 1) := by decide
theorem test_decode_rdlimb : decode 0b00000111000000100000000000000000 = .ok (.rdlimb 2) := by decide
theorem test_decode_rdinfo : decode 0b00001000000000110000000000000000 = .ok (.rdinfo 3) := by decide
theorem test_decode_parse : decode 0b00010000000100000000000000000000 = .ok (.parse 1) := by decide
theorem test_decode_render : decode 0b00010001000010010000000000000000 = .ok (.render 9) := by decide
theorem test_decode_add : decode 0b00100000001000000001000000000000 = .ok (.add 2 0 1) := by decide
theorem test_decode_sub : decode 0b00100001001100100001000000000000 = .ok (.sub 3 2 1) := by decide
theorem test_decode_neg : decode 0b00100010011000100000000000000000 = .ok (.neg 6 2) := by decide
theorem test_decode_mul : decode 0b00110000000000000001000000000000 = .ok (.mul 0 0 1) := by decide

/-- E1, E5, E7, E8: reserved opcodes (R76). -/
theorem test_decode_reserved : decode 0 = .error .reservedOpcode ∧ decode 0x09000000 = .error .reservedOpcode ∧
    decode 0x23000000 = .error .reservedOpcode ∧ decode 0x31000000 = .error .reservedOpcode := by decide

/-- E2, E3, E4, E10, E11: a nonzero must-be-zero bit in each format (R73). -/
theorem test_decode_must_be_zero : decode 0x20201001 = .error .mustBeZero ∧ decode 0x04145000 = .error .mustBeZero ∧
    decode 0x01710000 = .error .mustBeZero ∧ decode 0x22101000 = .error .mustBeZero ∧
    decode 0x07021000 = .error .mustBeZero := by decide

/-- R74 for a block with 8 registers: index 9 is illegal. -/
theorem test_decode_eight_registers : decodeFor 8 0x11090000 = .error .registerIndex := by decide

/-- No two rows of the table are selected by one word: their opcodes differ under both masks (R78). -/
theorem test_rows_disjoint : opcodeTable.Pairwise
    (fun r r' => (r.matchWord ^^^ r'.matchWord) &&& r.maskWord &&& r'.maskWord ≠ 0) := by decide

theorem test_decode_table_word : decodeTableWord 32 0x20201000 = some (.add 2 0 1) := by decide

/-! ### Limb Store (95 part 2.1) -/

/-- L3: the most negative value. -/
theorem test_ldi_most_negative :
    regAfter State.reset 0x01000000 0x8000000000000000 0 = some (⟨true, [0x8000000000000000]⟩, .none) := by decide
/-- L1: zero is positive. -/
theorem test_ldi_zero : regAfter (withRegs [(0, five)]) 0x01000000 0 0 = some (⟨false, [0]⟩, .none) := by decide
/-- L6: the same argument as L3, positive. -/
theorem test_ldu_top_bit :
    regAfter State.reset 0x02000000 0x8000000000000000 0 = some (⟨false, [0x8000000000000000]⟩, .none) := by decide
/-- L8. -/
theorem test_mov : regAfter (withRegs [(0, minusFive), (1, five)]) 0x03100000 0 1 = some (minusFive, .none) := by decide
/-- L10, L12: signed order, reversed between negatives. -/
theorem test_cmp_negative_less :
    resAfter (withRegs [(0, minusFive), (1, ⟨false, [3]⟩)]) 0x04001000 0 = some (0xFFFFFFFFFFFFFFFF, .none) := by decide
theorem test_cmp_two_negatives :
    resAfter (withRegs [(0, minusFive), (1, ⟨true, [7]⟩)]) 0x04001000 0 = some (1, .none) := by decide
/-- L19, L20: a longer list is greater whatever its limbs. -/
theorem test_cmpm_longer : resAfter (withRegs [(0, twoTo64), (1, allOnes)]) 0x05001000 0 = some (1, .none) := by decide
theorem test_cmpm_shorter :
    resAfter (withRegs [(0, ⟨false, [1]⟩), (1, ⟨false, [1, 1]⟩)]) 0x05001000 0 = some (0xFFFFFFFFFFFFFFFF, .none) := by decide
/-- L21, L23: the second operand takes the first one's sign. -/
theorem test_cmpu_first_negative :
    resAfter (withRegs [(0, minusFive), (1, ⟨false, [3]⟩)]) 0x06001000 0 = some (0xFFFFFFFFFFFFFFFF, .none) := by decide
theorem test_cmpu_second_negative :
    resAfter (withRegs [(0, ⟨false, [3]⟩), (1, minusFive)]) 0x06001000 0 = some (0xFFFFFFFFFFFFFFFF, .none) := by decide
/-- L26, L28: the limb order, and the whole 64-bit index. -/
theorem test_rdlimb_second : resAfter (withRegs [(2, twoTo64)]) 0x07020000 1 = some (1, .none) := by decide
theorem test_rdlimb_far : resAfter (withRegs [(2, twoTo64)]) 0x07020000 0xFFFFFFFFFFFFFFFF = some (0, .none) := by decide
/-- L31. -/
theorem test_rdinfo : resAfter (withRegs [(3, ⟨true, [0, 1]⟩)]) 0x08030000 0 = some (0x8000000000000002, .none) := by decide

/-! ### Decimal Codec (95 part 2.2, 2.3) -/

/-- P5: `"-00918"`. -/
theorem test_parse_leading_zeros :
    regAfter (withText State.reset [0x2D, 0x30, 0x30, 0x39, 0x31, 0x38]) 0x10100000 0x0000000600000000 1 =
      some (⟨true, [0x396]⟩, .none) := by decide
/-- P4: `"-0"` is accepted and is +0. -/
theorem test_parse_minus_zero :
    regAfter (withText (withRegs [(1, five)]) [0x2D, 0x30]) 0x10100000 0x0000000200000000 1 =
      some (⟨false, [0]⟩, .none) := by decide
/-- P24, P9, P10: a byte past 0x80, a bare sign, a plus sign. -/
theorem test_parse_invalid : validText [0x31, 0xB2] = false ∧ validText [0x2D] = false ∧
    validText [0x2B, 0x35] = false ∧ validText [] = false := by decide
/-- P15, P16, P17: the range check comes first and its sum is exact. -/
theorem test_parse_range : regAfter State.reset 0x10100000 0x0000000000001000 1 = some (⟨false, [0]⟩, .invalidFormat) ∧
    regAfter State.reset 0x10100000 0x0000000000001001 1 = some (⟨false, [0]⟩, .range) ∧
    regAfter State.reset 0x10100000 0x00000002FFFFFFFF 1 = some (⟨false, [0]⟩, .range) := by decide
/-- R4: the text of `-2^64`. -/
theorem test_render_text : renderText ⟨true, [0, 1]⟩ =
    [0x2D, 0x31, 0x38, 0x34, 0x34, 0x36, 0x37, 0x34, 0x34, 0x30, 0x37, 0x33, 0x37, 0x30, 0x39, 0x35, 0x35, 0x31,
     0x36, 0x31, 0x36] := by decide
/-- R2: `-12` over four bytes leaves the fourth. -/
theorem test_render : (complete (withText (withRegs [(2, ⟨true, [12]⟩)]) [0, 0, 0, 0x51]) 0x11020000 0).map
    (fun t => (t.res, t.windowWord 0)) = some (3, 0x5132312D) := by decide
/-- R9: no byte is written when the text does not fit. -/
theorem test_render_range : (complete (withRegs [(2, ⟨false, [12]⟩)]) 0x11020000 0xFFF).map
    (fun t => (t.err, t.tbuf, t.res)) = some (.range, [], 0) := by decide
/-- P6 and R3 through the reference procedures, chunk widths 1 and 9, 1 and 18. -/
theorem test_reference_parse :
    parseDigits 1 [1, 8, 4, 4, 6, 7, 4, 4, 0, 7, 3, 7, 0, 9, 5, 5, 1, 6, 1, 6] = [0, 1] ∧
    parseDigits 9 [1, 8, 4, 4, 6, 7, 4, 4, 0, 7, 3, 7, 0, 9, 5, 5, 1, 6, 1, 6] = [0, 1] := by decide
theorem test_reference_add : strAdd 18 [9, 9, 9] [1] = [1, 0, 0, 0] ∧ strAdd 1 [9, 9, 9] [1] = [1, 0, 0, 0] := by decide

/-! ### Additive and Multiplicative Engines (95 part 2.4, 2.5) -/

/-- A10: a carry through two limbs. -/
theorem test_add_carry_chain :
    regAfter (withRegs [(0, ⟨false, [0xFFFFFFFFFFFFFFFF, 0xFFFFFFFFFFFFFFFF]⟩), (1, ⟨false, [1]⟩)]) 0x20201000 0 2 =
      some (⟨false, [0, 0, 1]⟩, .none) := by decide
/-- A21: 65 limbs are too many. -/
theorem test_add_capacity :
    regAfter (withRegs [(0, largest), (1, ⟨false, [1]⟩)]) 0x20201000 0 2 = some (⟨false, [0]⟩, .capacity) := by
  decide +kernel
/-- A18: the final carry of a difference. -/
theorem test_sub_longer :
    regAfter (withRegs [(0, ⟨false, [3]⟩), (1, ⟨false, [5, 1]⟩)]) 0x21201000 0 2 = some (⟨true, [2, 1]⟩, .none) := by decide
/-- A20: destination and sources the same, zero positive. -/
theorem test_sub_self : regAfter (withRegs [(1, minusFive)]) 0x21111000 0 1 = some (⟨false, [0]⟩, .none) := by decide
/-- A28, A27. -/
theorem test_neg : regAfter (withRegs [(0, ⟨true, [0, 1]⟩)]) 0x22200000 0 2 = some (twoTo64, .none) := by decide
theorem test_neg_zero : regAfter State.reset 0x22200000 0 2 = some (⟨false, [0]⟩, .none) := by decide
/-- M17: every accumulator column is used. -/
theorem test_mul_two_limbs : mulCore [0xFFFFFFFFFFFFFFFF, 0xFFFFFFFFFFFFFFFF] [0xFFFFFFFFFFFFFFFF, 0xFFFFFFFFFFFFFFFF] =
    [1, 0, 0xFFFFFFFFFFFFFFFE, 0xFFFFFFFFFFFFFFFF] := by decide +kernel
/-- M3: a zero product is positive. -/
theorem test_mul_zero : regAfter (withRegs [(1, minusFive)]) 0x30201000 0 2 = some (⟨false, [0]⟩, .none) := by decide +kernel

/-! ### The host interface (95 part 3, PROG-5) -/

/-- B3, B5. -/
theorem test_param_and_reserved : readAfter [.hostRead 32 0x0018] State.reset = some 0x00400110 ∧
    readAfter [.hostRead 32 0x001C] State.reset = some 0x00001000 ∧
    readAfter [.hostRead 32 0x0000] State.reset = some 0 ∧ readAfter [.hostRead 32 0x9000] State.reset = some 0 := by decide
/-- B6: a dropped command sets OVR; STATUS reads 3 while the first command is pending. -/
theorem test_dropped_command :
    readAfter [.hostWrite 32 0 0x01000000, .hostWrite 32 0 0x01100000, .hostRead 32 4] State.reset = some 3 := by decide
/-- B7: OVR is write-1-to-clear. -/
theorem test_ovr_clear : readAfter [.hostWrite 32 4 1, .hostRead 32 4] { State.reset with ovr := true } = some 2 ∧
    readAfter [.hostWrite 32 4 2, .hostRead 32 4] { State.reset with ovr := true } = some 0 := by decide
/-- B8: the TBUF window is locked while a command is pending. -/
theorem test_tbuf_lock : readAfter [.hostWrite 32 0x8000 0x30303030, .hostWrite 32 0 0x01000000,
      .hostWrite 32 0x8000 0x31313131, .hostRead 32 0x8000] State.reset = some 0 ∧
    readAfter [.hostWrite 32 0x8000 0x30303030, .hostWrite 32 0 0x01000000,
      .hostWrite 32 0x8000 0x31313131, .engine, .hostRead 32 0x8000] State.reset = some 0x30303030 := by decide
/-- B9: the pending LDI uses the argument latched at accept. -/
theorem test_arg_latched : (after [.hostWrite 32 8 5, .hostWrite 32 0 0x01000000, .hostWrite 32 8 7, .engine] State.reset).map
    (fun t => (t.reg 0, t.arg)) = some (five, 7) := by decide
/-- B13: little-endian byte lanes of `"-12"`. -/
theorem test_byte_lanes :
    readAfter [.hostRead 32 0x8000] (withText State.reset [0x2D, 0x31, 0x32, 0]) = some 0x0032312D := by decide
/-- B14: an error code stays until the next completion. -/
theorem test_error_code : readAfter [.hostWrite 32 0 0x10000000, .engine, .hostRead 32 4] State.reset = some 0x10 ∧
    readAfter [.hostWrite 32 0 0x10000000, .engine, .hostWrite 32 0 0x01000000, .engine, .hostRead 32 4] State.reset =
      some 0 := by decide
/-- B15: reset discards a pending command. -/
theorem test_reset_discards : (after [.hostWrite 32 8 5, .hostWrite 32 0 0x01000000, .applyReset, .releaseReset, .engine]
    State.reset).map (fun t => (t.reg 0, t.pend, t.arg)) = some (⟨false, [0]⟩, none, 0) := by decide
/-- R81: `SUBA r1, r1` issued from the host gives +0 (R168). -/
theorem test_pseudo_suba : (after (issue (encode (Pseudo.suba 1 1).command.1) none) (withRegs [(1, minusFive)])).map
    (fun t => (t.reg 1, t.readData)) = some (⟨false, [0]⟩, some 0) := by decide
/-- R79, R135: `PARSE r1, #0, #3` has the argument word of R135's example. -/
theorem test_parse_arg : parseArg 0 3 = 0x0000000300000000 ∧ (Pseudo.assign 1 3).command = (.parse 1, some 0x0000000300000000) := by
  decide
/-- B16: a narrow or misaligned access, and one during reset, is refused. -/
theorem test_protocol_violations : after [.hostRead 16 0] State.reset = none ∧ after [.hostRead 32 2] State.reset = none ∧
    after [.applyReset, .hostRead 32 4] State.reset = none := by decide

/-! ### Other parameters (R8): four registers, one limb, four bytes of text -/

/-- The block of the tests of this part. -/
def block4 : State := { State.resetFor ⟨4, 1, 4⟩ with regs := [⟨false, [0]⟩, five, allOnes, five] }

/-- R8: the bounds of the legal range. -/
theorem test_params_range : Config.Params.legal ⟨1, 1, 4⟩ = true ∧ Config.Params.legal ⟨16, 65535, 32768⟩ = true ∧
    Config.Params.legal ⟨0, 1, 4⟩ = false ∧ Config.Params.legal ⟨17, 1, 4⟩ = false ∧ Config.Params.legal ⟨1, 0, 4⟩ = false ∧
    Config.Params.legal ⟨1, 65536, 4⟩ = false ∧ Config.Params.legal ⟨1, 1, 6⟩ = false ∧
    Config.Params.legal ⟨1, 1, 32772⟩ = false := by decide
/-- R41, R42, R52: PARAM0, PARAM1 and the end of the window follow the parameters. -/
theorem test_params_read : readAfter [.hostRead 32 0x0018] block4 = some 0x00010104 ∧
    readAfter [.hostRead 32 0x001C] block4 = some 4 ∧ readAfter [.hostRead 32 0x8004] block4 = some 0 := by decide
/-- R74: index 4 is illegal; R166: two limbs are too many; R135: five bytes leave TBUF. -/
theorem test_params_errors : regAfter block4 0x03400000 0 0 = some (⟨false, [0]⟩, .illegal) ∧
    regAfter block4 0x20012000 0 0 = some (⟨false, [0]⟩, .capacity) ∧
    regAfter block4 0x10000000 0x0000000500000000 0 = some (⟨false, [0]⟩, .range) := by decide
/-- R240: reset keeps the parameters and gives four registers back. -/
theorem test_params_reset : (after [.applyReset] block4).map (fun t => (t.params, t.regs)) =
    some (⟨4, 1, 4⟩, List.replicate 4 ⟨false, [0]⟩) := by decide

/-! ### The first command after reset, one word of each row, completes -/

theorem test_first_step_completes : [0x01000000, 0x02000000, 0x03000000, 0x04000000, 0x05000000, 0x06000000, 0x07000000,
    0x08000000, 0x10000000, 0x11000000, 0x20000000, 0x21000000, 0x22000000, 0x30000000].all
      (fun w => (nextOf (step (State.reset.withFetchWord 32 w))).isSome) = true := by decide

/-! ### Witnesses: for each statement with hypotheses, a case that meets all of them -/

/-- A state with a word pending, and some inputs to come. -/
def pendingWith (s : State) (c : BusWord) (A : Limb) (inputs : List Input) : State :=
  { s with pend := some ⟨c, A⟩, inputs := inputs }

/-- A state in which a host access may come. -/
def hostWith (s : State) (inputs : List Input) : State := { s with inputs := inputs }

/-- Two registers at the bounds of the index range hold the largest value and its negation. -/
def large : State := withRegs [(0, largest), (15, ⟨true, List.replicate 64 0xFFFFFFFFFFFFFFFF⟩), (7, twoTo64), (8, minusFive)]

/-- A block with the least legal LMAX and TBUF_SIZE, and four registers. -/
def small : State := State.resetFor ⟨4, 1, 4⟩

theorem witness_DecodeEncodeRoundTrip : 16 ≤ 16 ∧ (Instr.mul 15 0 15).wfFor 16 = true ∧ (Instr.render 15).wfFor 16 = true := by decide
theorem witness_EncodeDecodeRoundTrip : decodeFor 16 0x30F0F000 = .ok (.mul 15 0 15) ∧ decodeFor 1 0x30000000 = .ok (.mul 0 0 0) := by decide
theorem witness_DecodeAcceptsExactlyTheTableRows : decode 0x110F0000 = .ok (.render 15) ∧
    (⟨0x11000000, 0xFFF0FFFF⟩ : Row) ∈ opcodeTable ∧ Row.selects ⟨0x11000000, 0xFFF0FFFF⟩ 0x110F0000 = true := by decide
theorem witness_ReservedOpcodeRaisesIllegal :
    (pendingWith large 0x00FFFFFF 1 [.engine]).pend = some ⟨0x00FFFFFF, 1⟩ ∧
    (pendingWith large 0x00FFFFFF 1 [.engine]).inputs = .engine :: [] ∧ opcField 0x00FFFFFF = 0x00 ∧
    opcField 0x09000000 = 0x09 ∧ opcField 0x0F000000 = 0x0F ∧ opcField 0x12000000 = 0x12 ∧ opcField 0x1F000000 = 0x1F ∧
    opcField 0x23000000 = 0x23 ∧ opcField 0x2F000000 = 0x2F ∧ opcField 0x31000000 = 0x31 ∧ opcField 0xFFFFFFFF = 0xFF := by
  decide
theorem witness_NonzeroMustBeZeroBitRaisesIllegal :
    (pendingWith large 0x20201001 1 [.engine]).pend = some ⟨0x20201001, 1⟩ ∧
    (pendingWith large 0x20201001 1 [.engine]).inputs = .engine :: [] ∧
    (⟨0x20000000, 0xFF000FFF⟩ : Row) ∈ opcodeTable ∧ (0x20201001 : BusWord) &&& 0xFF000000 = 0x20000000 ∧
    (0x20201001 : BusWord) &&& 0xFF000FFF ≠ 0x20000000 := by decide
theorem witness_RegisterIndexAtOrAboveNregRaisesIllegal :
    (decodeFor 16 0x20F01000 = .ok (.add 15 0 1) ∧ ∃ f ∈ (Instr.add 15 0 1).used, 15 ≤ f) ∧
    ((pendingWith small 0x20004000 1 []).pend = some ⟨0x20004000, 1⟩ ∧ decodeFor 16 0x20004000 = .ok (.add 0 0 4) ∧
      ∃ f ∈ (Instr.add 0 0 4).used, small.params.nreg ≤ f) ∧
    (∃ f ∈ (Instr.add 0 16 0).used, large.params.nreg ≤ f) := by decide
theorem witness_StepRunsTheDecodedCommand :
    ((pendingWith large 0x30F0F000 1 [.engine]).pend = some ⟨0x30F0F000, 1⟩ ∧ decodeFor (pendingWith large 0x30F0F000 1 [.engine]).params.nreg 0x30F0F000 = .ok (.mul 15 0 15) ∧
      (pendingWith large 0x30F0F000 1 [.engine]).inputs = .engine :: []) ∧
    (pendingWith large 0x30F0F000 1 []).inputs = [] ∧ large.params.nreg = Config.hardware.nreg ∧ decodeTableWord 32 0x30F0F000 = some (.mul 15 0 15) := by decide
theorem witness_EveryPendingWordCompletes : (pendingWith large 0 1 []).pend = some ⟨0, 1⟩ := by decide
theorem witness_ErrorChangesNoRegisterResOrText : ∃ t, (pendingWith large 0 1 []).pend = some ⟨0, 1⟩ ∧
    engineTurn (pendingWith large 0 1 []) = .next t ∧ t.err ≠ .none := ⟨_, rfl, rfl, by decide⟩
theorem witness_CommandRaisesOnlyItsListedErrors : ∃ t, (Instr.mov 15 0).wfFor large.params.nreg = true ∧ exec (.mov 15 0) large = .next t :=
  ⟨_, rfl, rfl⟩
theorem witness_RegisterCommandFrame : ∃ t, destOf (.mov 15 0) = some 15 ∧ exec (.mov 15 0) large = .next t ∧ 14 ≠ 15 :=
  ⟨_, rfl, rfl, by decide⟩
theorem witness_ComparisonAndObservationFrame : ∃ t, destOf (.cmp 15 0) = none ∧ (∀ ra, Instr.cmp 15 0 ≠ .render ra) ∧
    exec (.cmp 15 0) large = .next t := ⟨_, rfl, by simp, rfl⟩
theorem witness_RenderFrame : ∃ t, exec (.render 8) (pendingWith large 0x11080000 0xFFE []) = .next t ∧
    argOff (pendingWith large 0x11080000 0xFFE []).latched = 4094 ∧
    (renderText ((pendingWith large 0x11080000 0xFFE []).reg 8)).length = 2 := ⟨_, rfl, by decide, by decide⟩
theorem witness_PendingCommandIgnoresLaterArgWrites : ∃ t, (pendingWith large 0x01000000 1 []).pend = some ⟨0x01000000, 1⟩ ∧
    exec (.ldi 0) (pendingWith large 0x01000000 1 []) = .next t := ⟨_, rfl, rfl⟩
theorem witness_CommandReadsOnlyItsSources : ∃ t1 t2,
    (pendingWith large 0x03F00000 1 []).params = (pendingWith (withText large [0x31]) 0x03F00000 1 []).params ∧
    (pendingWith large 0x03F00000 1 []).regs.length = (pendingWith (withText large [0x31]) 0x03F00000 1 []).regs.length ∧
    (pendingWith large 0x03F00000 1 []).latched = (pendingWith (withText large [0x31]) 0x03F00000 1 []).latched ∧
    (∀ j ∈ sourcesOf (.mov 15 0), (pendingWith large 0x03F00000 1 []).reg j = (pendingWith (withText large [0x31]) 0x03F00000 1 []).reg j) ∧
    exec (.mov 15 0) (pendingWith large 0x03F00000 1 []) = .next t1 ∧
    exec (.mov 15 0) (pendingWith (withText large [0x31]) 0x03F00000 1 []) = .next t2 ∧ t1.err = .none :=
  ⟨_, _, rfl, rfl, rfl, by intro j _; rfl, rfl, rfl, rfl⟩
/-- The same for RENDER, whose bytes 4094 and 4095 are written. -/
theorem witness_CommandReadsOnlyItsSources_render : ∃ t1 t2,
    (pendingWith large 0x11080000 0xFFE []).latched = (pendingWith (withText large [0x31]) 0x11080000 0xFFE []).latched ∧
    (pendingWith large 0x11080000 0xFFE []).reg 8 = (pendingWith (withText large [0x31]) 0x11080000 0xFFE []).reg 8 ∧
    exec (.render 8) (pendingWith large 0x11080000 0xFFE []) = .next t1 ∧
    exec (.render 8) (pendingWith (withText large [0x31]) 0x11080000 0xFFE []) = .next t2 ∧ t1.err = .none ∧
    argOff (pendingWith large 0x11080000 0xFFE []).latched ≤ 4095 ∧
    4095 < argOff (pendingWith large 0x11080000 0xFFE []).latched + (renderText (large.reg 8)).length :=
  ⟨_, _, rfl, rfl, rfl, rfl, rfl, by decide, by decide⟩
theorem witness_CanonIsTheShortestLimbList : ([0, 0] : List Limb) ≠ [] ∧ 0 < (limbsOf 0).length := by decide
theorem witness_EncIsTheOneRegisterRepresentation : 1 ≤ large.params.lmax ∧ ((2 ^ (64 * large.params.lmax) - 1 : Int)).natAbs < 2 ^ (64 * large.params.lmax) ∧
    largest.legal Config.hardware.lmax = true ∧ largest.val = 2 ^ (64 * large.params.lmax) - 1 := by decide +kernel
theorem witness_command_words : (0x01F00000 : BusWord) &&& 0xFF0FFFFF = 0x01000000 ∧
    (0x02F00000 : BusWord) &&& 0xFF0FFFFF = 0x02000000 ∧ (0x03FF0000 : BusWord) &&& 0xFF00FFFF = 0x03000000 ∧
    (0x040FF000 : BusWord) &&& 0xFFF00FFF = 0x04000000 ∧ (0x050FF000 : BusWord) &&& 0xFFF00FFF = 0x05000000 ∧
    (0x060FF000 : BusWord) &&& 0xFFF00FFF = 0x06000000 ∧ (0x070F0000 : BusWord) &&& 0xFFF0FFFF = 0x07000000 ∧
    (0x080F0000 : BusWord) &&& 0xFFF0FFFF = 0x08000000 ∧ (0x10F00000 : BusWord) &&& 0xFF0FFFFF = 0x10000000 ∧
    (0x110F0000 : BusWord) &&& 0xFFF0FFFF = 0x11000000 ∧ (0x20FFF000 : BusWord) &&& 0xFF000FFF = 0x20000000 ∧
    (0x21FFF000 : BusWord) &&& 0xFF000FFF = 0x21000000 ∧ (0x22FF0000 : BusWord) &&& 0xFF00FFFF = 0x22000000 ∧
    (0x30FFF000 : BusWord) &&& 0xFF000FFF = 0x30000000 := by decide
theorem witness_malformed_words : ((0x01F00001 : BusWord) &&& 0xFF000000 = 0x01000000 ∧ (0x01F00001 : BusWord) &&& 0xFF0FFFFF ≠ 0x01000000) ∧
    ((0x02F10000 : BusWord) &&& 0xFF000000 = 0x02000000 ∧ (0x02F10000 : BusWord) &&& 0xFF0FFFFF ≠ 0x02000000) ∧
    ((0x03FF1000 : BusWord) &&& 0xFF000000 = 0x03000000 ∧ (0x03FF1000 : BusWord) &&& 0xFF00FFFF ≠ 0x03000000) ∧
    ((0x041FF000 : BusWord) &&& 0xFF000000 = 0x04000000 ∧ (0x041FF000 : BusWord) &&& 0xFFF00FFF ≠ 0x04000000) ∧
    ((0x050FF800 : BusWord) &&& 0xFF000000 = 0x05000000 ∧ (0x050FF800 : BusWord) &&& 0xFFF00FFF ≠ 0x05000000) ∧
    ((0x068FF000 : BusWord) &&& 0xFF000000 = 0x06000000 ∧ (0x068FF000 : BusWord) &&& 0xFFF00FFF ≠ 0x06000000) ∧
    ((0x070F1000 : BusWord) &&& 0xFF000000 = 0x07000000 ∧ (0x070F1000 : BusWord) &&& 0xFFF0FFFF ≠ 0x07000000) ∧
    ((0x081F0000 : BusWord) &&& 0xFF000000 = 0x08000000 ∧ (0x081F0000 : BusWord) &&& 0xFFF0FFFF ≠ 0x08000000) ∧
    ((0x10F80000 : BusWord) &&& 0xFF000000 = 0x10000000 ∧ (0x10F80000 : BusWord) &&& 0xFF0FFFFF ≠ 0x10000000) ∧
    ((0x11FF0000 : BusWord) &&& 0xFF000000 = 0x11000000 ∧ (0x11FF0000 : BusWord) &&& 0xFFF0FFFF ≠ 0x11000000) ∧
    ((0x20FFF001 : BusWord) &&& 0xFF000000 = 0x20000000 ∧ (0x20FFF001 : BusWord) &&& 0xFF000FFF ≠ 0x20000000) ∧
    ((0x21FFF800 : BusWord) &&& 0xFF000000 = 0x21000000 ∧ (0x21FFF800 : BusWord) &&& 0xFF000FFF ≠ 0x21000000) ∧
    ((0x22FF8000 : BusWord) &&& 0xFF000000 = 0x22000000 ∧ (0x22FF8000 : BusWord) &&& 0xFF00FFFF ≠ 0x22000000) ∧
    ((0x30FFF100 : BusWord) &&& 0xFF000000 = 0x30000000 ∧ (0x30FFF100 : BusWord) &&& 0xFF000FFF ≠ 0x30000000) := by decide
theorem witness_illegal_commands : (Instr.ldi 16).wfFor large.params.nreg = false ∧ (Instr.ldu 16).wfFor large.params.nreg = false ∧ (Instr.mov 0 16).wfFor large.params.nreg = false ∧
    (Instr.cmp 0 16).wfFor large.params.nreg = false ∧ (Instr.cmpm 16 0).wfFor large.params.nreg = false ∧ (Instr.cmpu 0 16).wfFor large.params.nreg = false ∧ (Instr.rdlimb 16).wfFor large.params.nreg = false ∧
    (Instr.rdinfo 16).wfFor large.params.nreg = false ∧ (Instr.parse 16).wfFor large.params.nreg = false ∧ (Instr.render 16).wfFor large.params.nreg = false ∧ (Instr.add 0 16 0).wfFor large.params.nreg = false ∧
    (Instr.sub 0 0 16).wfFor large.params.nreg = false ∧ (Instr.neg 16 0).wfFor large.params.nreg = false ∧ (Instr.mul 0 0 16).wfFor large.params.nreg = false := by decide
theorem witness_LdiLoadsTheSignedArgument : (pendingWith large 0x01F00000 0x8000000000000000 []).pend = some ⟨0x01F00000, 0x8000000000000000⟩ ∧
    15 < large.params.nreg := by decide
theorem witness_LduLoadsTheUnsignedArgument : (pendingWith large 0x02F00000 0xFFFFFFFFFFFFFFFF []).pend = some ⟨0x02F00000, 0xFFFFFFFFFFFFFFFF⟩ ∧
    15 < large.params.nreg := by decide
theorem witness_MovCopiesTheRegister : 15 < large.params.nreg ∧ 0 < large.params.nreg ∧
    large.regs.length = large.params.nreg ∧ 15 ≠ 0 := by decide
theorem witness_CmpOrdersSignedValues : 7 < large.params.nreg ∧ 8 < large.params.nreg ∧ (large.reg 7).canonical = true ∧
    (large.reg 8).canonical = true := by decide
theorem witness_CmpmOrdersMagnitudes : 7 < large.params.nreg ∧ 8 < large.params.nreg ∧ canonicalMag (large.reg 7).mag = true ∧
    canonicalMag (large.reg 8).mag = true := by decide
theorem witness_CmpuOrdersWithTheFirstSign : 8 < large.params.nreg ∧ 7 < large.params.nreg ∧ (large.reg 8).canonical = true ∧
    (large.reg 7).canonical = true ∧ (large.reg 8).neg = true := by decide
theorem witness_OrderingTestsAfterCmp : 0 < large.params.nreg ∧ 15 < large.params.nreg ∧ (large.reg 0).canonical = true ∧
    (large.reg 15).canonical = true := by decide
theorem witness_RdlimbReadsOneLimb : (pendingWith large 0x07070000 1 []).pend = some ⟨0x07070000, 1⟩ ∧ 7 < large.params.nreg ∧
    (1 : Limb).toNat < (large.reg 7).mag.length ∧ (large.reg 7).mag.length ≤ (2 : Limb).toNat := by decide
theorem witness_RdinfoReadsSignAndLength : large.params.legal = true ∧ 0 < large.params.nreg ∧ (large.reg 0).legal large.params.lmax = true ∧ (large.reg 1).legal large.params.lmax = true ∧
    magValue (large.reg 1).mag = 0 := by decide +kernel
theorem witness_ParseValueIsTheSignedDigitSum : digitBytes [0x30, 0x39] = true := by decide
theorem witness_ReferenceParsingGivesTheLimbs : 1 ≤ 9 ∧ 9 ≤ 9 ∧ (∀ d ∈ [0, 9], d < 10) ∧ (2 ^ 32 - 1 < 2 ^ 32) ∧
    [0, 9] ∈ chunks 9 [0, 9] := by decide
/-- The four outcomes of PARSE: the range exceeded by one, an empty text at the end of TBUF, a text of
1234 digits whose value needs 65 limbs, and a text that fits. -/
theorem witness_ParseLoadsDecimalText :
    (pendingWith large 0x10F00000 0x0000000000001001 []).pend = some ⟨0x10F00000, 0x0000000000001001⟩ ∧ 15 < large.params.nreg ∧
    large.params.tbufSize < 0x1001 + 0 ∧
    (0x1000 + 0 ≤ large.params.tbufSize ∧ validText ((pendingWith large 0x10F00000 0x1000 []).memRead 0x1000 0) = false) ∧
    (0 + 2 ≤ large.params.tbufSize ∧ validText ((withText large [0x2D, 0x30]).memRead 0 2) = true ∧
      (parseValue ((withText large [0x2D, 0x30]).memRead 0 2)).mag.length ≤ large.params.lmax) := by decide
theorem witness_ParseLoadsDecimalText_capacity :
    (withText large (0x32 :: List.replicate 1233 0x30)).memRead 0 (0x32 :: List.replicate 1233 0x30 : List Byte).length =
      0x32 :: List.replicate 1233 0x30 ∧
    validText (0x32 :: List.replicate 1233 0x30) = true ∧
    large.params.lmax < (parseValue (0x32 :: List.replicate 1233 0x30)).mag.length :=
  ⟨State.memRead_memWrite _ _ _, by decide +kernel⟩
theorem witness_RenderedTextOfARegisterFitsTbuf : largest.legal Config.hardware.lmax = true := by decide +kernel
theorem witness_ReferenceRenderingGivesTheDigits : 1 ≤ 18 ∧ 18 ≤ 18 ∧ (∀ d ∈ List.replicate 18 9, d < 10) ∧
    (List.replicate 18 9).length = 18 ∧ 1 ≤ 1 := by decide
theorem witness_RenderWritesTheText : (pendingWith large 0x11080000 0xFFFFFFFF00000FFE []).pend = some ⟨0x11080000, 0xFFFFFFFF00000FFE⟩ ∧
    8 < large.params.nreg ∧ (0xFFFFFFFF00000FFE : Limb).toNat % 2 ^ 32 + (renderText (large.reg 8)).length ≤ large.params.tbufSize ∧
    large.params.tbufSize < (0xFFFFFFFF00000FFF : Limb).toNat % 2 ^ 32 + (renderText (large.reg 8)).length := by decide
theorem witness_ParseAndRenderAreInverse : (digitBytes [0x31, 0x30] = true ∧ noLeadingZero [0x31, 0x30] = true ∧
    ¬ (true = true ∧ ([0x31, 0x30] : List Byte) = [0x30])) ∧ (digitBytes [0x30] = true ∧ noLeadingZero [0x30] = true ∧
    ¬ (false = true ∧ ([0x30] : List Byte) = [0x30])) ∧ minusFive.canonical = true ∧ BigReg.zero.canonical = true := by decide
theorem witness_RenderThenParseRestoresTheRegister : (pendingWith large 0x11080000 0xFFE []).pend = some ⟨0x11080000, 0xFFE⟩ ∧
    large.params.legal = true ∧ large.regs.length = large.params.nreg ∧ 8 < large.params.nreg ∧ 15 < large.params.nreg ∧ (large.reg 8).legal large.params.lmax = true ∧
    (0xFFE : Limb).toNat % 2 ^ 32 + (renderText (large.reg 8)).length ≤ large.params.tbufSize := by decide
theorem witness_AddCoreComputesTheSignedSum : twoTo64.canonical = true ∧ minusFive.canonical = true ∧
    BigReg.zero.canonical = true := by decide
/-- The largest and smallest sums that fit, and the next ones that do not. -/
theorem witness_AddWritesTheSum : large.params.legal = true ∧ 15 < large.params.nreg ∧
    (large.reg 0).canonical = true ∧ (large.reg 15).canonical = true ∧ (large.reg 1).canonical = true ∧
    ((large.reg 0).val + (large.reg 1).val).natAbs < 2 ^ (64 * large.params.lmax) ∧
    2 ^ (64 * large.params.lmax) ≤ ((large.reg 0).val + (large.reg 0).val).natAbs ∧
    2 ^ (64 * large.params.lmax) ≤ ((large.reg 15).val + (large.reg 8).val).natAbs := by decide +kernel
theorem witness_SubWritesTheDifference : large.params.legal = true ∧ 15 < large.params.nreg ∧
    (large.reg 0).canonical = true ∧ (large.reg 8).canonical = true ∧
    ((large.reg 0).val - (large.reg 0).val).natAbs < 2 ^ (64 * large.params.lmax) ∧
    2 ^ (64 * large.params.lmax) ≤ ((large.reg 0).val - (large.reg 8).val).natAbs := by decide +kernel
theorem witness_NegWritesTheNegation : 15 < large.params.nreg ∧ 0 < large.params.nreg ∧ (large.reg 0).canonical = true ∧
    (large.reg 1).canonical = true := by decide +kernel
theorem witness_HalfWordsSumToTheMagnitude : 3 / 2 < (large.reg 7).mag.length := by decide
theorem witness_HalfWordAccumulationNeverOverflows : 3 < 2 * (large.reg 7).mag.length := by decide
theorem witness_MulCoreComputesTheProduct : canonicalMag [0, 1] = true ∧ canonicalMag [5] = true ∧ magValue [0, 1] ≠ 0 ∧
    magValue [5] ≠ 0 := by decide
theorem witness_MulWritesTheProduct : large.params.legal = true ∧ 15 < large.params.nreg ∧
    (large.reg 0).canonical = true ∧ (large.reg 7).canonical = true ∧ (large.reg 1).canonical = true ∧
    ((large.reg 0).val * (large.reg 1).val).natAbs < 2 ^ (64 * large.params.lmax) ∧
    2 ^ (64 * large.params.lmax) ≤ ((large.reg 0).val * (large.reg 7).val).natAbs := by decide +kernel
theorem witness_CommandWriteIsAcceptedOrDropped :
    ((hostWith large [.hostWrite 32 0x0000 0]).resetApplied = false ∧ (hostWith large [.hostWrite 32 0x0000 0]).pend = none ∧
      (hostWith large [.hostWrite 32 0x0000 0]).inputs = .hostWrite 32 0x0000 0 :: []) ∧
    (pendingWith large 5 6 [.hostWrite 32 0x0000 0]).pend = some ⟨5, 6⟩ := by decide
theorem witness_IssueSequenceRunsTheCommand : (Instr.ldi 15).wfFor large.params.nreg = true ∧
    (Instr.neg 15 0).wfFor large.params.nreg = true ∧ large.params.nreg ≤ 16 ∧ large.pend = none ∧ large.resetApplied = false ∧
    (hostWith large (issue (encode (.ldi 15)) (some 7))).inputs = issue (encode (.ldi 15)) (some 7) ++ [] ∧
    (hostWith large (issue (encode (.neg 15 0)) none)).inputs = issue (encode (.neg 15 0)) none ++ [] := by decide
theorem witness_StatusFieldsAndWriteOneToClear : (hostWith large [.hostRead 32 0x0004]).resetApplied = false ∧
    (hostWith large [.hostRead 32 0x0004]).inputs = .hostRead 32 0x0004 :: [] ∧
    (hostWith large [.hostWrite 32 0x0004 2]).inputs = .hostWrite 32 0x0004 2 :: [] := by decide
theorem witness_ArgAndResAreTwoBusWords : large.resetApplied = false ∧
    (hostWith large [.hostWrite 32 0x0008 1]).inputs = .hostWrite 32 0x0008 1 :: [] ∧
    (hostWith large [.hostWrite 32 0x000C 1]).inputs = .hostWrite 32 0x000C 1 :: [] ∧
    (hostWith large [.hostRead 32 0x0008]).inputs = .hostRead 32 0x0008 :: [] ∧
    (hostWith large [.hostRead 32 0x000C]).inputs = .hostRead 32 0x000C :: [] ∧
    (hostWith large [.hostRead 32 0x0010]).inputs = .hostRead 32 0x0010 :: [] ∧
    (hostWith large [.hostRead 32 0x0014]).inputs = .hostRead 32 0x0014 :: [] ∧
    (hostWith large [.hostWrite 32 0x0014 1]).inputs = .hostWrite 32 0x0014 1 :: [] := by decide
theorem witness_ConstantAndReservedOffsets : large.params.legal = true ∧ large.resetApplied = false ∧
    (hostWith large [.hostRead 32 0x7FFC]).inputs = .hostRead 32 0x7FFC :: [] ∧
    (hostWith large [.hostWrite 32 0x7FFC 1]).inputs = .hostWrite 32 0x7FFC 1 :: [] ∧
    (0x7FFC : Offset).toNat % 4 = 0 ∧ (0x0020 : Offset).toNat = 0x0020 ∧ (0x7FFC : Offset).toNat ≤ 0x7FFC ∧
    0x8000 + large.params.tbufSize ≤ (0x9000 : Offset).toNat ∧ 0x8000 + large.params.tbufSize ≤ (0xFFFC : Offset).toNat := by decide
theorem witness_TbufWindowByteLanes : large.params.legal = true ∧ large.resetApplied = false ∧ large.pend = none ∧ 1023 < large.params.tbufSize / 4 ∧
    (hostWith large [.hostWrite 32 (BitVec.ofNat 16 (0x8000 + 4 * 1023)) 1]).inputs =
      .hostWrite 32 (BitVec.ofNat 16 (0x8000 + 4 * 1023)) 1 :: [] ∧
    (hostWith large [.hostRead 32 0x8000]).inputs = .hostRead 32 (BitVec.ofNat 16 (0x8000 + 4 * 0)) :: [] := by decide
theorem witness_TbufWindowIsLockedWhileBusy : large.params.legal = true ∧ (pendingWith large 0 0 [.hostRead 32 0x8FFC]).resetApplied = false ∧
    (pendingWith large 0 0 [.hostRead 32 0x8FFC]).pend = some ⟨0, 0⟩ ∧ 1023 < large.params.tbufSize / 4 ∧
    (pendingWith large 0 0 [.hostRead 32 0x8FFC]).inputs = .hostRead 32 (BitVec.ofNat 16 (0x8000 + 4 * 1023)) :: [] := by decide
theorem witness_OnlyProtocolViolationsAreRefused :
    (hostWith large [.hostRead 32 0xFFFC]).inputs = .hostRead 32 0xFFFC :: [] ∧ large.resetApplied = false ∧
    (0xFFFC : Offset).toNat % 4 = 0 ∧ (0xFFFE : Offset).toNat % 4 ≠ 0 ∧ large.applyReset.resetApplied = true := by decide
theorem witness_HostAccessFrame : (∃ t, step (hostWith large [.hostRead 32 0x0004]) = .next t) ∧
    (∃ t, step (hostWith large [.hostWrite 32 0x0000 0]) = .next t) := ⟨⟨_, rfl⟩, ⟨_, rfl⟩⟩
theorem witness_ResetRestoresTheResetState :
    (pendingWith large 1 2 [.applyReset]).inputs = .applyReset :: [] ∧
    (hostWith large.applyReset [.releaseReset]).inputs = .releaseReset :: [] := by decide
theorem witness_ResetStateMeetsTheInvariant : Config.hardware.legal = true ∧
    Config.Params.legal ⟨1, 1, 4⟩ = true ∧ Config.Params.legal ⟨16, 65535, 32768⟩ = true := by decide
theorem witness_StepKeepsTheInvariant : ∃ t, (pendingWith (withRegs [(7, twoTo64)]) 0x03F70000 0 []).inv = true ∧
    step (pendingWith (withRegs [(7, twoTo64)]) 0x03F70000 0 []) = .next t := ⟨_, by decide, rfl⟩
theorem witness_ReachableRegistersAreCanonical : ∃ t, Config.hardware.legal = true ∧ Sys2Proof.core.run 2
    { State.resetFor Config.hardware with inputs := [.hostWrite 32 0x0000 0x01F00000] } = .next t ∧ 15 < Config.hardware.nreg :=
  ⟨_, by decide, rfl, by decide⟩
theorem witness_PendingCommandCompletesAfterTheInputs :
    legalInputs false [.hostWrite 32 0x0000 0x01F00000, .engine, .applyReset, .releaseReset, .hostRead 32 0x0004] = true := by
  decide

end Sys2Proof.Tests
end

section
/-! ## Limb lists: length, canonical form, and the one representation of a number (R15 to R17, R31, R32) -/

namespace Sys2Proof.Machine

/-! ### How many limbs a number needs (R16) -/

theorem bitLength_le_iff (n k : Nat) : bitLength n ≤ k ↔ n < 2 ^ k := by
  unfold bitLength
  split
  · next h => simp [h]
  · next h => rw [Nat.succ_le_iff, Nat.log2_lt h]

theorem limbCount_pos (n : Nat) : 1 ≤ limbCount n := Nat.le_max_left _ _

theorem limbCount_le_iff (n k : Nat) : limbCount n ≤ k ↔ 1 ≤ k ∧ n < 2 ^ (64 * k) := by
  rw [← bitLength_le_iff, limbCount]
  omega

theorem lt_pow_limbCount (n : Nat) : n < 2 ^ (64 * limbCount n) :=
  ((limbCount_le_iff n _).1 le_rfl).2

theorem limbCount_mono {a b : Nat} (h : a ≤ b) : limbCount a ≤ limbCount b :=
  (limbCount_le_iff a _).2 ⟨limbCount_pos b, h.trans_lt (lt_pow_limbCount b)⟩

/-! ### `limbs(n)` (R16) -/

@[simp] theorem length_limbsOf (n : Nat) : (limbsOf n).length = limbCount n := by simp [limbsOf]

theorem getElem?_limbsOf (n k : Nat) (h : k < (limbsOf n).length) :
    (limbsOf n)[k]? = some (BitVec.ofNat 64 (n / 2 ^ (64 * k))) := by
  rw [length_limbsOf] at h
  simp [limbsOf, h]

/-- The first `k` limbs of the rule hold the number modulo `2^(64k)`. -/
theorem magValue_map_range (n k : Nat) :
    magValue ((List.range k).map (fun i => BitVec.ofNat 64 (n / 2 ^ (64 * i)))) = n % 2 ^ (64 * k) := by
  induction k with
  | zero => simp [Nat.mod_one]
  | succ k ih =>
    rw [List.range_succ, List.map_append, magValue_append, ih, Nat.mul_succ, Nat.pow_add, Nat.mod_mul]
    simp

@[simp] theorem magValue_limbsOf (n : Nat) : magValue (limbsOf n) = n := by
  rw [limbsOf, magValue_map_range, Nat.mod_eq_of_lt (lt_pow_limbCount n)]

/-! ### Canonical lists (R31) -/

/-- Two lists of one length with one magnitude are equal. -/
theorem magValue_injective_of_length {m : List Limb} : ∀ {m' : List Limb}, m.length = m'.length →
    magValue m = magValue m' → m = m' := by
  induction m with
  | nil => intro m' hlen _; exact (List.length_eq_zero_iff.1 hlen.symm).symm
  | cons l m ih =>
    intro m' hlen hval
    cases m' with
    | nil => simp at hlen
    | cons l' m' =>
      simp only [List.length_cons, magValue_cons, Nat.add_right_cancel_iff] at hlen hval
      have hl := l.isLt
      have hl' := l'.isLt
      rw [ih hlen (by omega), BitVec.eq_of_toNat_eq (x := l) (y := l') (by omega)]

theorem canonicalMag_concat (m : List Limb) (l : Limb) :
    canonicalMag (m ++ [l]) = true ↔ m = [] ∨ l ≠ 0 := by
  simp [canonicalMag]

/-- Magnitudes fit one limb less exactly when the most significant limb is zero and not the only one. -/
theorem limbCount_concat_le_iff (m : List Limb) (l : Limb) :
    limbCount (magValue (m ++ [l])) ≤ m.length ↔ m ≠ [] ∧ l = 0 := by
  rw [limbCount_le_iff, Nat.succ_le_iff, List.length_pos_iff, magValue_append]
  refine and_congr_right fun _ => ⟨fun hlt => ?_, fun hl => by simp [hl, magValue_lt]⟩
  by_contra hl
  have hpos : 0 < l.toNat := Nat.pos_of_ne_zero fun h0 => hl (BitVec.eq_of_toNat_eq (by simpa using h0))
  have := Nat.le_mul_of_pos_right (2 ^ (64 * m.length)) hpos
  simp only [magValue_cons, magValue_nil, mul_zero, add_zero] at hlt
  omega

theorem limbCount_magValue_le {m : List Limb} (h : m ≠ []) : limbCount (magValue m) ≤ m.length :=
  (limbCount_le_iff _ _).2 ⟨List.length_pos_iff.2 h, magValue_lt m⟩

/-- A list is canonical exactly when it is as long as its magnitude needs. -/
theorem canonicalMag_iff_length (m : List Limb) :
    canonicalMag m = true ↔ m.length = limbCount (magValue m) := by
  induction m using List.reverseRecOn with
  | nil => decide
  | append_singleton m l =>
    have hle := limbCount_magValue_le (m := m ++ [l]) (by simp)
    have htop := limbCount_concat_le_iff m l
    rw [List.length_append, List.length_singleton] at hle ⊢
    calc canonicalMag (m ++ [l]) = true
        ↔ ¬(m ≠ [] ∧ l = 0) := by rw [canonicalMag_concat]; tauto
      _ ↔ m.length + 1 = limbCount (magValue (m ++ [l])) := by rw [← htop]; omega

theorem canonicalMag_limbsOf (n : Nat) : canonicalMag (limbsOf n) = true := by
  simp [canonicalMag_iff_length]

/-- A canonical list is `limbs` of its magnitude (R32). -/
theorem eq_limbsOf_of_canonicalMag {m : List Limb} (h : canonicalMag m = true) : m = limbsOf (magValue m) :=
  magValue_injective_of_length (by simpa using (canonicalMag_iff_length m).1 h) (by simp)

/-- Trimming leaves no zero limb at the most significant end. -/
theorem getLast?_trimZeros (m : List Limb) : (trimZeros m).getLast? ≠ some 0 := by
  induction m with
  | nil => simp [trimZeros]
  | cons l m ih =>
    unfold trimZeros
    split
    · split
      · simp
      · next h => simpa using h
    · next h => rw [List.getLast?_cons_cons, ← h]; exact ih

theorem canonicalMag_canon (m : List Limb) : canonicalMag (canon m) = true := by
  cases m with
  | nil => decide
  | cons l m =>
    have h := getLast?_trimZeros m
    rw [canon]
    generalize trimZeros m = ts at h ⊢
    cases ts with
    | nil => simp [canonicalMag]
    | cons t ts => simpa [canonicalMag] using h

/-- `canon(m) = limbs(mag(m))` (R16). -/
theorem canon_eq_limbsOf (m : List Limb) : canon m = limbsOf (magValue m) := by
  rw [eq_limbsOf_of_canonicalMag (canonicalMag_canon m), magValue_canon]

/-! ### Register values (R15, R17, R32) -/

theorem BigReg.natAbs_val (r : BigReg) : r.val.natAbs = magValue r.mag := by
  unfold BigReg.val
  split <;> simp

theorem BigReg.canonical_iff (r : BigReg) :
    r.canonical = true ↔ canonicalMag r.mag = true ∧ (r.neg = true → magValue r.mag ≠ 0) := by
  cases h : r.neg <;> simp [BigReg.canonical, h]

theorem BigReg.legal_iff (lmax : Nat) (r : BigReg) :
    r.legal lmax = true ↔ r.canonical = true ∧ r.mag.length ≤ lmax := by
  simp [BigReg.legal]

@[simp] theorem val_enc (v : Int) : (enc v).val = v := by
  simp only [BigReg.val, enc, magValue_limbsOf, decide_eq_true_eq]
  split <;> omega

theorem canonical_enc (v : Int) : (enc v).canonical = true := by
  rw [BigReg.canonical_iff]
  simp only [enc, canonicalMag_limbsOf, magValue_limbsOf, decide_eq_true_eq, true_and]
  omega

/-- A canonical register value is `enc` of its value (R32). -/
theorem BigReg.eq_enc_val {r : BigReg} (h : r.canonical = true) : r = enc r.val := by
  obtain ⟨hmag, hneg⟩ := (BigReg.canonical_iff r).1 h
  have hsign : r.neg = decide (r.val < 0) := by
    unfold BigReg.val
    cases hr : r.neg with
    | false => simp
    | true =>
      have := hneg hr
      simp
      omega
  rw [enc, ← hsign, BigReg.natAbs_val, ← eq_limbsOf_of_canonicalMag hmag]

theorem legal_enc_iff (lmax : Nat) (v : Int) :
    (enc v).legal lmax = true ↔ 1 ≤ lmax ∧ v.natAbs < 2 ^ (64 * lmax) := by
  rw [BigReg.legal_iff, ← limbCount_le_iff, and_iff_right (canonical_enc v), enc, length_limbsOf]

/-- Settles O17: `limbs` by its length and limbs, `canon` by the one canonical list of a magnitude. -/
theorem canonIsTheShortestLimbList : Obligations.CanonIsTheShortestLimbList := by
  refine ⟨fun n => ⟨magValue_limbsOf n, canonicalMag_limbsOf n, ?_, getElem?_limbsOf n⟩, fun m hm => ?_,
    canon_eq_limbsOf⟩
  · rw [length_limbsOf, limbCount, bitLength]
    split <;> omega
  · rw [length_limbsOf]
    exact limbCount_magValue_le hm

/-- Settles O18: a legal value is `enc` of its value, and `enc(v)` is legal when `v` is in range. -/
theorem encIsTheOneRegisterRepresentation : Obligations.EncIsTheOneRegisterRepresentation := by
  rintro lmax v hlmax hv r
  constructor
  · rintro ⟨hlegal, rfl⟩
    exact BigReg.eq_enc_val ((BigReg.legal_iff lmax r).1 hlegal).1
  · rintro rfl
    exact ⟨(legal_enc_iff lmax v).2 ⟨hlmax, hv⟩, val_enc v⟩

end Sys2Proof.Machine
end

section
/-! ## The size of a rendered text (R9, R137) -/

namespace Sys2Proof.Machine

/-- A number below `10^k` adds at most `k` digits, whatever bound the recursion has. -/
theorem length_decimalDigitsFrom_le (bound : Nat) : ∀ (n k : Nat) (acc : List Nat), 1 ≤ k → n < 10 ^ k →
    (decimalDigitsFrom bound n acc).length ≤ k + acc.length := by
  induction bound with
  | zero => intro n k acc _ _; exact Nat.le_add_left _ _
  | succ bound ih =>
    intro n k acc hk hn
    rw [decimalDigitsFrom]
    split
    · rw [List.length_cons]; omega
    · next hten =>
      obtain ⟨j, rfl⟩ := Nat.exists_eq_add_of_le' hk
      have hj : 1 ≤ j := Nat.pos_of_ne_zero fun h0 => hten (by simpa [h0] using hn)
      have := ih (n / 10) j (n % 10 :: acc) hj (by rw [pow_succ] at hn; omega)
      rw [List.length_cons] at this
      omega

theorem length_decimalDigits_le {n k : Nat} (hk : 1 ≤ k) (hn : n < 10 ^ k) : (decimalDigits n).length ≤ k :=
  length_decimalDigitsFrom_le _ n k [] hk hn

theorem length_renderText_le (r : BigReg) : (renderText r).length ≤ (decimalDigits (magValue r.mag)).length + 1 := by
  unfold renderText
  dsimp only
  split <;> simp

/-- 64 limbs need at most 1234 decimal digits (R9), by `2^93 < 10^28` for each 93 bits. -/
theorem pow_two_4096_lt : (2 : Nat) ^ 4096 < 10 ^ 1234 :=
  calc (2 : Nat) ^ 4096 = (2 ^ 93) ^ 44 * 2 ^ 4 := by rw [← pow_mul, ← pow_add]
    _ < (10 ^ 28) ^ 44 * 10 ^ 2 :=
      Nat.mul_lt_mul_of_le_of_lt (Nat.pow_le_pow_left (by norm_num) 44) (by norm_num) (by positivity)
    _ = 10 ^ 1234 := by rw [← pow_mul, ← pow_add]

/-- Settles O33: the magnitude's limb bound gives its digit bound. -/
theorem renderedTextOfARegisterFitsTbuf : Obligations.RenderedTextOfARegisterFitsTbuf := by
  intro r hr
  have hlen : r.mag.length ≤ 64 := ((BigReg.legal_iff _ r).1 hr).2
  have hbits : 64 * r.mag.length ≤ 4096 := by omega
  have hmag : magValue r.mag < 2 ^ 4096 := (magValue_lt r.mag).trans_le (pow_le_pow_right₀ one_le_two hbits)
  have hdigits : (decimalDigits (magValue r.mag)).length ≤ 1234 :=
    length_decimalDigits_le (by omega) (hmag.trans pow_two_4096_lt)
  have htext := length_renderText_le r
  have hsize : Config.hardware.tbufSize = 4096 := rfl
  exact ⟨hmag, hdigits, by omega, by omega⟩

end Sys2Proof.Machine
end

section
/-! ## What a command can do, said once: an error report, or one kind of write (R14, R34, R40, R210) -/

namespace Sys2Proof.Machine

/-- The value a register command computes from the state before it; +0 for the commands that write none. -/
def resultOf (s : State) : Instr → BigReg
  | .ldi _ => ⟨decide (argSigned s.latched < 0), [BitVec.ofNat 64 (argSigned s.latched).natAbs]⟩
  | .ldu _ => ⟨false, [BitVec.ofNat 64 (argUnsigned s.latched)]⟩
  | .mov _ ra => s.reg ra
  | .parse _ => parseValue (s.memRead (argOff s.latched) (argLen s.latched))
  | .add _ ra rb => addCore (s.reg ra) (s.reg rb) .plus
  | .sub _ ra rb => addCore (s.reg ra) (s.reg rb) .minus
  | .neg _ ra => addCore (enc 0) (s.reg ra) .minus
  | .mul _ ra rb => mulReg (s.reg ra) (s.reg rb)
  | .cmp _ _ | .cmpm _ _ | .cmpu _ _ | .rdlimb _ | .rdinfo _ | .render _ => BigReg.zero

/-- What a command that completes without an error has written, before the report. -/
inductive Effect (i : Instr) (s : State) : State → Prop
  /-- Its result to its destination, at most `LMAX` limbs long if the command checks that. -/
  | register (rd : Nat) (dest : destOf i = some rd)
      (fits : ErrCode.capacity ∈ errorsOf i → (resultOf s i).mag.length ≤ s.params.lmax) :
      Effect i s (s.writeReg rd (resultOf s i))
  /-- `RES` alone. -/
  | res (v : Limb) (observes : destOf i = none) : Effect i s (s.writeRes v)
  /-- The text of a register, inside `TBUF`, and its length to `RES`. -/
  | text (ra : Nat) (render : i = .render ra)
      (fits : argOff s.latched + (renderText (s.reg ra)).length ≤ s.params.tbufSize) :
      Effect i s ((s.memWrite (argOff s.latched) (renderText (s.reg ra))).writeRes
        (BitVec.ofNat 64 (renderText (s.reg ra)).length))

/-- The two ways a command completes: with an error code, or with its effect. -/
inductive Completion (i : Instr) (s : State) : Answer → Prop
  | error (code : ErrCode) (isError : code ≠ .none) : Completion i s (raiseError code s)
  | effect {u : State} (legal : i.wfFor s.params.nreg = true) (effect : Effect i s u) : Completion i s (succeed u)

section

variable {i : Instr} {s : State}

/-- The register check leaves the rest of the command or ILLEGAL. -/
theorem Completion.withLegal {answer : Answer} (h : i.wfFor s.params.nreg = true → Completion i s answer) :
    Completion i s (withLegal i.used s answer) := by
  cases hlegal : indexesLegal s.params.nreg i.used with
  | false => rw [withLegal_illegal _ _ _ hlegal]; exact .error .illegal (by decide)
  | true => rw [withLegal_legal _ _ _ hlegal]; exact h hlegal

/-- The capacity check leaves the write or CAPACITY. -/
theorem Completion.writeResult {rd : Nat} (legal : i.wfFor s.params.nreg = true) (dest : destOf i = some rd) :
    Completion i s (writeResult rd (resultOf s i) s) := by
  unfold Machine.writeResult
  split
  · exact .error .capacity (by decide)
  · next hfit => exact .effect legal (.register rd dest fun _ => Nat.le_of_not_lt hfit)

end

theorem exec_parse_completion (rd : Nat) (s : State) : Completion (.parse rd) s (exec (.parse rd) s) :=
  .withLegal fun legal => by
    dsimp only
    split
    · exact .error .range (by decide)
    · split
      · exact .writeResult legal rfl
      · exact .error .invalidFormat (by decide)

theorem exec_render_completion (ra : Nat) (s : State) : Completion (.render ra) s (exec (.render ra) s) :=
  .withLegal fun legal => by
    split
    · exact .error .range (by decide)
    · next hfit => exact .effect legal (.text ra rfl (Nat.le_of_not_lt hfit))

/-- Every command completes, in every state, with an error code or with its effect. -/
theorem exec_completion (i : Instr) (s : State) : Completion i s (exec i s) := by
  cases i with
  | ldi rd => exact .withLegal fun legal => .effect legal (.register rd rfl (by simp [errorsOf]))
  | ldu rd => exact .withLegal fun legal => .effect legal (.register rd rfl (by simp [errorsOf]))
  | mov rd ra => exact .withLegal fun legal => .effect legal (.register rd rfl (by simp [errorsOf]))
  | neg rd ra => exact .withLegal fun legal => .effect legal (.register rd rfl (by simp [errorsOf]))
  | cmp ra rb => exact .withLegal fun legal => .effect legal (.res _ rfl)
  | cmpm ra rb => exact .withLegal fun legal => .effect legal (.res _ rfl)
  | cmpu ra rb => exact .withLegal fun legal => .effect legal (.res _ rfl)
  | rdlimb ra => exact .withLegal fun legal => .effect legal (.res _ rfl)
  | rdinfo ra => exact .withLegal fun legal => .effect legal (.res _ rfl)
  | parse rd => exact exec_parse_completion rd s
  | render ra => exact exec_render_completion ra s
  | add rd ra rb => exact .withLegal fun legal => .writeResult legal rfl
  | sub rd ra rb => exact .withLegal fun legal => .writeResult legal rfl
  | mul rd ra rb => exact .withLegal fun legal => .writeResult legal rfl

/-- What the engine's turn can do (R14, R210, R214, R225). -/
theorem engineTurn_cases {s t : State} (h : engineTurn s = .next t) :
    (s.pend = none ∧ t = s) ∨ (∃ code, code ≠ .none ∧ t = s.finish code) ∨
    ∃ i u, i.wfFor s.params.nreg = true ∧ Effect i s u ∧ t = u.finish .none := by
  cases hpend : s.pend with
  | none =>
    rw [engineTurn_idle s hpend] at h
    cases h
    exact .inl ⟨rfl, rfl⟩
  | some p =>
    cases hdecode : decodeFor s.params.nreg p.cmd with
    | error e =>
      rw [engineTurn_rejected s p e hpend hdecode] at h
      cases h
      exact .inr (.inl ⟨.illegal, by decide, rfl⟩)
    | ok i =>
      rw [engineTurn_command s p i hpend hdecode] at h
      have hexec := exec_completion i s
      rw [h] at hexec
      cases hexec with
      | error code hcode => exact .inr (.inl ⟨code, hcode, rfl⟩)
      | effect legal effect => exact .inr (.inr ⟨i, _, legal, effect, rfl⟩)

/-- Settles O10: of the engine's turns on a pending word only the error report leaves an error code. -/
theorem errorChangesNoRegisterResOrText : Obligations.ErrorChangesNoRegisterResOrText := by
  intro s t p hpend hturn herr
  obtain ⟨hidle, -⟩ | ⟨code, -, rfl⟩ | ⟨i, u, -, -, rfl⟩ := engineTurn_cases hturn
  · simp [hpend] at hidle
  · rfl
  · exact absurd rfl herr

end Sys2Proof.Machine
end

section
/-! ## The Additive Engine computes the signed sum (R100, R160 to R165) -/

namespace Sys2Proof.Machine

theorem two_pow_limbs_succ (n : Nat) : 2 ^ (64 * (n + 1)) = 2 ^ 64 * 2 ^ (64 * n) := by
  rw [Nat.mul_succ, Nat.add_comm, Nat.pow_add]

theorem toNat_carryLimb (c : Bool) : (carryLimb c).toNat = c.toNat := by cases c <;> rfl

/-! ### The limb loop (R162) -/

/-- One limb and its carry out are the exact sum of the two limbs and the carry in. -/
theorem addLimb_sum (w : Limb) (b : Option Limb) (carry : Bool) :
    (addLimb w b carry).1.toNat + 2 ^ 64 * (addLimb w b carry).2.toNat =
      w.toNat + (b.getD 0).toNat + carry.toNat := by
  have hw := w.isLt
  have hle : carry.toNat ≤ 1 := carry.toNat_le
  cases b with
  | none =>
    have hzero : (0 : Limb).toNat = 0 := rfl
    simp only [addLimb, BitVec.lt_def, BitVec.toNat_add, toNat_carryLimb, Option.getD_none, hzero]
    by_cases h : (w.toNat + carry.toNat) % 2 ^ 64 < w.toNat
    · simp only [h, decide_true, Bool.toNat_true]; omega
    · simp only [h, decide_false, Bool.toNat_false]; omega
  | some bk =>
    have hb := bk.isLt
    simp only [addLimb, BitVec.lt_def, BitVec.toNat_add, toNat_carryLimb, Option.getD_some]
    by_cases h : (w.toNat + carry.toNat) % 2 ^ 64 < w.toNat
    · simp only [h, decide_true, Bool.true_or, Bool.toNat_true]; omega
    · by_cases h2 : ((w.toNat + carry.toNat) % 2 ^ 64 + bk.toNat) % 2 ^ 64 < bk.toNat
      · simp only [h, h2, decide_true, decide_false, Bool.not_false, Bool.and_self, Bool.or_true, Bool.toNat_true]
        omega
      · simp only [h, h2, decide_false, Bool.and_false, Bool.or_false, Bool.toNat_false]; omega

theorem magValue_head_tail (m : List Limb) :
    magValue m = (m.head?.getD 0).toNat + 2 ^ 64 * magValue m.tail := by
  cases m <;> simp

/-- The operand the loop adds: the first operand's limbs, complemented when differencing. -/
def loopOperand (diff : Bool) (xs : List Limb) : List Limb := xs.map (fun x => if diff then ~~~x else x)

/-- The limbs and the final carry of the loop are the exact sum of its operands and the carry in. -/
theorem addLoop_sum (diff : Bool) (xs : List Limb) : ∀ (mb : List Limb) (carry : Bool), mb.length ≤ xs.length →
    magValue (addLoop diff xs mb carry).1 + 2 ^ (64 * xs.length) * (addLoop diff xs mb carry).2.toNat =
      magValue (loopOperand diff xs) + magValue mb + carry.toNat := by
  induction xs with
  | nil =>
    intro mb carry h
    simp [List.length_eq_zero_iff.1 (Nat.le_zero.1 h), addLoop, loopOperand]
  | cons x xs ih =>
    intro mb carry h
    have hlimb := addLimb_sum (if diff then ~~~x else x) mb.head? carry
    have hrest := ih mb.tail (addLimb (if diff then ~~~x else x) mb.head? carry).2
      (by rw [List.length_tail]; exact Nat.sub_le_of_le_add h)
    simp only [addLoop, loopOperand, List.map_cons, magValue_cons, List.length_cons, two_pow_limbs_succ] at hrest ⊢
    rw [magValue_head_tail mb]
    linarith

/-- A list and its complement add up to all ones. -/
theorem magValue_complement (m : List Limb) :
    magValue (m.map (fun l => ~~~l)) + magValue m + 1 = 2 ^ (64 * m.length) := by
  induction m with
  | nil => rfl
  | cons l m ih =>
    have hl := l.isLt
    simp only [List.map_cons, magValue_cons, List.length_cons, BitVec.toNat_not, two_pow_limbs_succ]
    omega

/-! ### Finalization (R163, R164) -/

/-- The carry chain adds its carry, modulo the width of the list. -/
theorem magValue_addCarry (m : List Limb) : ∀ c : Bool,
    magValue (addCarry m c) = (magValue m + c.toNat) % 2 ^ (64 * m.length) := by
  induction m with
  | nil => intro c; simp [addCarry, Nat.mod_one]
  | cons l m ih =>
    intro c
    have hl := l.isLt
    have hle : c.toNat ≤ 1 := c.toNat_le
    have hout : (decide (2 ^ 64 ≤ l.toNat + c.toNat)).toNat = (l.toNat + c.toNat) / 2 ^ 64 := by
      by_cases h : 2 ^ 64 ≤ l.toNat + c.toNat
      · simp only [h, decide_true, Bool.toNat_true]; omega
      · simp only [h, decide_false, Bool.toNat_false]; omega
    have hsplit : l.toNat + 2 ^ 64 * magValue m + c.toNat = l.toNat + c.toNat + 2 ^ 64 * magValue m := by omega
    rw [addCarry, magValue_cons, magValue_cons, ih, toNat_carryLimb, hout, BitVec.toNat_ofNat,
      List.length_cons, two_pow_limbs_succ, Nat.mod_mul, hsplit, Nat.add_mul_mod_self_left,
      Nat.add_mul_div_left _ _ (by decide), Nat.add_comm (magValue m)]

/-! ### The limbs of AddCore (R162 to R164) -/

theorem loopOperand_add (xs : List Limb) : loopOperand false xs = xs := List.map_id' xs

theorem magValue_loopOperand_diff {n : Nat} {m : List Limb} (h : m.length ≤ n) :
    magValue (loopOperand true (extendTo n m)) + magValue m + 1 = 2 ^ (64 * n) := by
  have hcompl := magValue_complement (extendTo n m)
  rw [length_extendTo n m h, magValue_extendTo] at hcompl
  exact hcompl

/-- The loop over the extended first operand, with its two outputs named. -/
theorem addLoop_extendTo_sum (diff : Bool) (ma mb : List Limb) :
    ∃ r c, addLoop diff (extendTo (max ma.length mb.length) ma) mb false = (r, c) ∧
      r.length = max ma.length mb.length ∧
      magValue r + 2 ^ (64 * r.length) * c.toNat =
        magValue (loopOperand diff (extendTo (max ma.length mb.length) ma)) + magValue mb := by
  have hext := length_extendTo _ ma (le_max_left ma.length mb.length)
  have hlen := length_addLoop diff (extendTo (max ma.length mb.length) ma) mb false
  have hsum := addLoop_sum diff (extendTo (max ma.length mb.length) ma) mb false (by rw [hext]; exact le_max_right _ _)
  exact ⟨_, _, rfl, hlen.trans hext, by rw [hlen, hsum]; rfl⟩

/-- When adding, the limbs are those of the sum of the two canonical magnitudes. -/
theorem addMag_add {ma mb : List Limb} (ha : canonicalMag ma = true) (hb : canonicalMag mb = true) :
    addMag false ma mb = limbsOf (magValue ma + magValue mb) := by
  obtain ⟨r, c, hloop, hlen, hsum⟩ := addLoop_extendTo_sum false ma mb
  rw [loopOperand_add, magValue_extendTo] at hsum
  have hmag : addMag false ma mb = finishSum r c := by simp [addMag, hloop]
  cases c with
  | true =>
    have hval : magValue (r ++ [1]) = magValue ma + magValue mb := by rw [← hsum, magValue_append]; rfl
    rw [hmag, ← hval]
    exact eq_limbsOf_of_canonicalMag ((canonicalMag_concat r 1).2 (.inr (by decide)))
  | false =>
    have hval : magValue r = magValue ma + magValue mb := by simpa using hsum
    have hle : r.length ≤ limbCount (magValue r) := by
      rw [hlen, hval, (canonicalMag_iff_length ma).1 ha, (canonicalMag_iff_length mb).1 hb]
      exact max_le (limbCount_mono (Nat.le_add_right _ _)) (limbCount_mono (Nat.le_add_left _ _))
    have hne : r ≠ [] := by
      rintro rfl
      have := (canonicalMag_iff_length ma).1 ha ▸ limbCount_pos (magValue ma)
      simp at hlen
      omega
    rw [hmag, ← hval]
    exact eq_limbsOf_of_canonicalMag ((canonicalMag_iff_length r).2 (hle.antisymm (limbCount_magValue_le hne)))

/-- When differencing, the limbs are those of the distance of the two magnitudes. -/
theorem addMag_diff (ma mb : List Limb) :
    addMag true ma mb = limbsOf ((magValue ma : Int) - magValue mb).natAbs := by
  obtain ⟨r, c, hloop, hlen, hsum⟩ := addLoop_extendTo_sum true ma mb
  have hcompl := magValue_loopOperand_diff (le_max_left ma.length mb.length)
  rw [← hlen] at hcompl hsum
  have hb : magValue mb < 2 ^ (64 * r.length) :=
    (magValue_lt mb).trans_le (Nat.pow_le_pow_right two_pos (by omega))
  have hr := magValue_lt r
  have hmag : addMag true ma mb = finishDiff r c := by simp [addMag, hloop]
  rw [hmag, finishDiff, canon_eq_limbsOf]
  congr 1
  cases c with
  | true =>
    rw [if_pos rfl, magValue_addCarry]
    simp only [Bool.toNat_true, mul_one] at hsum ⊢
    rw [Nat.mod_eq_of_lt (by omega)]
    omega
  | false =>
    have := magValue_complement r
    rw [if_neg (by decide)]
    simp only [Bool.toNat_false, mul_zero, add_zero] at hsum
    omega

/-! ### Comparison (R100, R101) -/

/-- Equal lengths compare as the magnitudes do, from the most significant limb down. -/
theorem compareFromTop_compares (xs : List Limb) : ∀ ys : List Limb, xs.length = ys.length →
    (compareFromTop xs ys).Compares (magValue xs.reverse) (magValue ys.reverse) := by
  induction xs with
  | nil => intro ys h; rw [List.length_eq_zero_iff.1 h.symm]; rfl
  | cons x xs ih =>
    intro ys h
    cases ys with
    | nil => simp at h
    | cons y ys =>
      have hlen : xs.length = ys.length := by simpa using h
      have hx := magValue_lt xs.reverse
      have hy := magValue_lt ys.reverse
      rw [List.length_reverse] at hx hy
      simp only [List.reverse_cons, magValue_append, List.length_reverse, magValue_cons, magValue_nil, mul_zero,
        add_zero, hlen, compareFromTop, BitVec.lt_def] at hx ⊢
      split
      · next hgt =>
        have := Nat.mul_le_mul_left (2 ^ (64 * ys.length)) (Nat.succ_le_of_lt hgt)
        rw [Nat.mul_succ] at this
        exact show _ < _ by omega
      · split
        · next hlt =>
          have := Nat.mul_le_mul_left (2 ^ (64 * ys.length)) (Nat.succ_le_of_lt hlt)
          rw [Nat.mul_succ] at this
          exact show _ < _ by omega
        · next hge hle =>
          have hrest := ih ys hlen
          rw [show x.toNat = y.toNat by omega]
          cases hc : compareFromTop xs ys <;> rw [hc] at hrest <;> simpa [Ordering.Compares] using hrest

/-- On canonical lists `CompareMag` orders the magnitudes. -/
theorem compareMag_compares {m m' : List Limb} (h : canonicalMag m = true) (h' : canonicalMag m' = true) :
    (compareMag m m').Compares (magValue m) (magValue m') := by
  have hlt_of_length {a b : Nat} (hab : limbCount a < limbCount b) : a < b :=
    lt_of_not_ge fun hge => absurd (limbCount_mono hge) (Nat.not_le_of_lt hab)
  unfold compareMag
  rw [(canonicalMag_iff_length m).1 h, (canonicalMag_iff_length m').1 h']
  split
  · next hgt => exact hlt_of_length hgt
  · split
    · next hlt => exact hlt_of_length hlt
    · have hlen : m.length = m'.length := by
        rw [(canonicalMag_iff_length m).1 h, (canonicalMag_iff_length m').1 h']
        omega
      simpa using compareFromTop_compares m.reverse m'.reverse (by simpa using hlen)

/-- `Compare(unsigned)` orders the magnitudes, the other way round under a negative first sign. -/
theorem compareReg_unsigned_eq_lt {a b : BigReg} (ha : canonicalMag a.mag = true) (hb : canonicalMag b.mag = true) :
    compareReg a b false = .lt ↔
      if a.neg then magValue b.mag < magValue a.mag else magValue a.mag < magValue b.mag := by
  have hc := compareMag_compares ha hb
  cases hneg : a.neg with
  | false => simpa [compareReg, hneg] using hc.eq_lt
  | true => simpa [compareReg, hneg] using (Ordering.compares_swap.2 hc).eq_lt

/-! ### AddCore (R160, R161, R165) -/

/-- The operation sign as a factor (R160). -/
def OpSign.apply : OpSign → Int → Int
  | .plus, v => v
  | .minus, v => -v

/-- The signed sum by the effective sign: a difference of magnitudes or their sum, under the first sign. -/
theorem val_add_apply_val (a b : BigReg) (op : OpSign) :
    a.val + op.apply b.val =
      let v : Int := if differs a b op then magValue a.mag - magValue b.mag else magValue a.mag + magValue b.mag
      if a.neg then -v else v := by
  obtain ⟨na, ma⟩ := a
  obtain ⟨nb, mb⟩ := b
  cases op <;> cases na <;> cases nb <;> simp [BigReg.val, differs, OpSign.apply] <;> ring

theorem enc_neg (v : Int) : enc (-v) = ⟨decide (0 < v), limbsOf v.natAbs⟩ := by simp [enc]

/-- For canonical operands `AddCore` gives `enc(val(a) + op * val(b))` (R165). -/
theorem addCore_eq_enc {a b : BigReg} (ha : a.canonical = true) (hb : b.canonical = true) (op : OpSign) :
    addCore a b op = enc (a.val + op.apply b.val) := by
  obtain ⟨hma, hza⟩ := (BigReg.canonical_iff a).1 ha
  obtain ⟨hmb, -⟩ := (BigReg.canonical_iff b).1 hb
  have hlt := compareReg_unsigned_eq_lt hma hmb
  rw [val_add_apply_val, addCore, resultSign]
  cases hd : differs a b op with
  | true =>
    rw [addMag_diff, if_pos rfl, if_pos rfl, beq_eq_decide]
    simp only [hlt]
    cases a.neg with
    | true => simp only [↓reduceIte, enc_neg, Int.sub_pos, Nat.cast_lt]
    | false => simp only [Bool.false_eq_true, ↓reduceIte, enc, sub_neg, Nat.cast_lt]
  | false =>
    rw [addMag_add hma hmb, if_neg Bool.false_ne_true, if_neg Bool.false_ne_true, ← Nat.cast_add]
    cases hn : a.neg with
    | true =>
      have := hza hn
      rw [if_pos rfl, enc_neg, Int.natAbs_natCast, decide_eq_true (by omega)]
    | false => rw [if_neg Bool.false_ne_true, enc, Int.natAbs_natCast, decide_eq_false (by omega)]

end Sys2Proof.Machine
end

section
/-! ## The invariant of every reachable state (R8, R30 to R32, R48, R240) -/

namespace Sys2Proof.Machine

/-! ### Commands compute canonical register values (R31, R32, R48) -/

theorem canonical_addCore {a b : BigReg} (ha : a.canonical = true) (hb : b.canonical = true) (op : OpSign) :
    (addCore a b op).canonical = true := by
  rw [addCore_eq_enc ha hb op]
  exact canonical_enc _

/-- The accumulators of a pass are canonical, positive operands of its two sums (R191). -/
theorem canonical_canon (m : List Limb) : (⟨false, canon m⟩ : BigReg).canonical = true :=
  (BigReg.canonical_iff _).2 ⟨canonicalMag_canon m, by simp⟩

theorem canonical_mulPass (ma mb : List Limb) {acc : BigReg} (h : acc.canonical = true) (i : Nat) :
    (mulPass ma mb acc i).canonical = true :=
  canonical_addCore (canonical_addCore h (canonical_canon _) .plus) (canonical_canon _) .plus

theorem canonicalMag_mulCore (ma mb : List Limb) : canonicalMag (mulCore ma mb) = true := by
  have hfold := List.foldlRecOn (motive := fun acc : BigReg => acc.canonical = true)
    (List.range (2 * ma.length)) (mulPass ma mb) (canonical_enc 0) fun _ h i _ => canonical_mulPass ma mb h i
  exact ((BigReg.canonical_iff _).1 hfold).1

theorem canonical_mulReg (a b : BigReg) : (mulReg a b).canonical = true := by
  have hmag := canonicalMag_mulCore a.mag b.mag
  refine (BigReg.canonical_iff _).2 ⟨hmag, fun hneg (hzero : magValue (mulCore a.mag b.mag) = 0) => ?_⟩
  have : mulCore a.mag b.mag = [0] := by rw [eq_limbsOf_of_canonicalMag hmag, hzero]; rfl
  simp [mulReg, this] at hneg

/-- NEG computes `enc` of the negated value (R169). -/
theorem addCore_zero_minus {r : BigReg} (h : r.canonical = true) : addCore (enc 0) r .minus = enc (-r.val) := by
  rw [addCore_eq_enc (canonical_enc 0) h, val_enc, zero_add]
  rfl

/-- A negated value needs no more limbs than its operand, so NEG needs no capacity check (R169). -/
theorem legal_neg {lmax : Nat} {r : BigReg} (h : r.legal lmax = true) :
    (addCore (enc 0) r .minus).legal lmax = true := by
  have hcanon := ((BigReg.legal_iff lmax r).1 h).1
  rw [addCore_zero_minus hcanon, legal_enc_iff, Int.natAbs_neg, ← legal_enc_iff, ← BigReg.eq_enc_val hcanon]
  exact h

/-! ### One-limb values (R103, R104) -/

theorem limbsOf_of_lt {n : Nat} (h : n < 2 ^ 64) : limbsOf n = [BitVec.ofNat 64 n] := by
  have hcount : limbCount n = 1 := le_antisymm ((limbCount_le_iff n 1).2 ⟨le_rfl, h⟩) (limbCount_pos n)
  simp [limbsOf, hcount]

theorem enc_of_natAbs_lt {v : Int} (h : v.natAbs < 2 ^ 64) :
    enc v = ⟨decide (v < 0), [BitVec.ofNat 64 v.natAbs]⟩ := by
  rw [enc, limbsOf_of_lt h]

theorem natAbs_argSigned_lt (A : Limb) : (argSigned A).natAbs < 2 ^ 64 := by
  have hA := A.isLt
  unfold argSigned toSigned64
  split <;> omega

theorem resultOf_ldi (s : State) (rd : Nat) : resultOf s (.ldi rd) = enc (argSigned s.latched) :=
  (enc_of_natAbs_lt (natAbs_argSigned_lt _)).symm

theorem resultOf_ldu (s : State) (rd : Nat) : resultOf s (.ldu rd) = enc (argUnsigned s.latched) :=
  (enc_of_natAbs_lt (v := (s.latched.toNat : Int)) s.latched.isLt).symm

theorem legal_enc_of_natAbs_lt {lmax : Nat} (hlmax : 1 ≤ lmax) {v : Int} (h : v.natAbs < 2 ^ 64) :
    (enc v).legal lmax = true :=
  (legal_enc_iff lmax v).2 ⟨hlmax, h.trans_le (Nat.pow_le_pow_right two_pos (by omega))⟩

/-! ### The invariant by its parts -/

theorem State.inv_iff (s : State) :
    s.inv = true ↔ s.params.legal = true ∧ s.regs.length = s.params.nreg ∧
      (∀ r ∈ s.regs, r.legal s.params.lmax = true) ∧ Memory.wf s.params.tbufSize s.tbuf = true ∧
      (s.resetApplied = true → s.pend = none) := by
  cases ha : s.resetApplied <;> simp [State.inv, ha, and_assoc]

theorem params_legal_iff (p : Config.Params) :
    p.legal = true ↔ (1 ≤ p.nreg ∧ p.nreg ≤ 16) ∧ (1 ≤ p.lmax ∧ p.lmax ≤ 65535) ∧
      4 ≤ p.tbufSize ∧ p.tbufSize ≤ 32768 ∧ p.tbufSize % 4 = 0 := by
  simp [Config.Params.legal, and_assoc]

theorem inv_resetFor {p : Config.Params} (hp : p.legal = true) : (State.resetFor p).inv = true := by
  obtain ⟨-, ⟨hlmax, -⟩, -⟩ := (params_legal_iff p).1 hp
  refine (State.inv_iff _).2 ⟨hp, List.length_replicate, fun r hr => ?_, State.wf_resetFor p, fun _ => rfl⟩
  rw [List.eq_of_mem_replicate hr]
  exact legal_enc_of_natAbs_lt (v := 0) hlmax (by decide)

/-- Settles O57: the reset registers are +0 and nothing is written or pending. -/
theorem resetStateMeetsTheInvariant : Obligations.ResetStateMeetsTheInvariant :=
  ⟨fun _ hp => inv_resetFor hp, inv_resetFor (by decide)⟩

/-! ### The invariant under the named operations -/

section

variable {s : State} (hs : s.inv = true)
include hs

theorem State.inv_reg_legal {j : Nat} (hj : j < s.params.nreg) : (s.reg j).legal s.params.lmax = true := by
  obtain ⟨-, hlen, hregs, -, -⟩ := s.inv_iff.1 hs
  have hj' : j < s.regs.length := by omega
  simpa [State.reg, hj'] using hregs _ (List.getElem_mem hj')

theorem State.inv_finish (code : ErrCode) : (s.finish code).inv = true := by
  obtain ⟨hparams, hlen, hregs, htbuf, -⟩ := s.inv_iff.1 hs
  exact (State.inv_iff _).2 ⟨hparams, hlen, hregs, htbuf, fun _ => rfl⟩

theorem State.inv_writeReg (i : Nat) {v : BigReg} (hv : v.legal s.params.lmax = true) :
    (s.writeReg i v).inv = true := by
  obtain ⟨hparams, hlen, hregs, htbuf, hpend⟩ := s.inv_iff.1 hs
  refine (State.inv_iff _).2 ⟨hparams, by simpa using hlen, fun r hr => ?_, htbuf, hpend⟩
  obtain hold | rfl := List.mem_or_eq_of_mem_set hr
  · exact hregs r hold
  · exact hv

theorem State.inv_memWrite {a : Nat} {bs : List Byte} (hfits : a + bs.length ≤ s.params.tbufSize) :
    (s.memWrite a bs).inv = true := by
  obtain ⟨hparams, hlen, hregs, htbuf, hpend⟩ := s.inv_iff.1 hs
  rw [State.memWrite_eq]
  exact (State.inv_iff _).2 ⟨hparams, hlen, hregs, State.wf_memWrite _ bs s a hfits htbuf, hpend⟩

theorem State.inv_applyReset : s.applyReset.inv = true := by
  obtain ⟨hparams, hlen, hregs, htbuf, -⟩ := (State.inv_iff _).1 (inv_resetFor (s.inv_iff.1 hs).1)
  exact (State.inv_iff _).2 ⟨hparams, hlen, hregs, htbuf, fun _ => rfl⟩

theorem State.inv_releaseReset : s.releaseReset.inv = true := by
  obtain ⟨hparams, hlen, hregs, htbuf, -⟩ := s.inv_iff.1 hs
  exact (State.inv_iff _).2 ⟨hparams, hlen, hregs, htbuf, fun h => by simp at h⟩

/-- A CMD write is made only while reset is released, so what it latches is not pending under reset. -/
theorem State.inv_writeCmd (hreset : s.resetApplied = false) (c : BusWord) : (s.writeCmd c).inv = true := by
  obtain ⟨hparams, hlen, hregs, htbuf, -⟩ := s.inv_iff.1 hs
  unfold State.writeCmd
  split <;> exact (State.inv_iff _).2 ⟨hparams, hlen, hregs, htbuf, fun h => by simp [hreset] at h⟩

/-! ### The invariant under the engine's turn -/

/-- A register command's result is legal: one limb, a copy, a length kept, or a length checked. -/
theorem legal_resultOf {i : Instr} {rd : Nat} (legal : i.wfFor s.params.nreg = true) (dest : destOf i = some rd)
    (fits : ErrCode.capacity ∈ errorsOf i → (resultOf s i).mag.length ≤ s.params.lmax) :
    (resultOf s i).legal s.params.lmax = true := by
  obtain ⟨-, ⟨hlmax, -⟩, -⟩ := (params_legal_iff _).1 (s.inv_iff.1 hs).1
  have hsource : ∀ j ∈ i.used, (s.reg j).legal s.params.lmax = true := fun j hj =>
    State.inv_reg_legal hs (by simpa using List.all_eq_true.1 legal j hj)
  have hsum : ∀ ra ∈ i.used, ∀ rb ∈ i.used, ∀ op, (addCore (s.reg ra) (s.reg rb) op).canonical = true :=
    fun ra ha rb hb op => canonical_addCore ((BigReg.legal_iff _ _).1 (hsource ra ha)).1
      ((BigReg.legal_iff _ _).1 (hsource rb hb)).1 op
  cases i with
  | ldi rd => rw [resultOf_ldi]; exact legal_enc_of_natAbs_lt hlmax (natAbs_argSigned_lt _)
  | ldu rd => rw [resultOf_ldu]; exact legal_enc_of_natAbs_lt hlmax s.latched.isLt
  | mov rd ra => exact hsource ra (by simp [Instr.used])
  | neg rd ra => exact legal_neg (hsource ra (by simp [Instr.used]))
  | parse rd => exact (BigReg.legal_iff _ _).2 ⟨canonical_enc _, fits (by simp [errorsOf])⟩
  | add rd ra rb =>
    exact (BigReg.legal_iff _ _).2
      ⟨hsum ra (by simp [Instr.used]) rb (by simp [Instr.used]) .plus, fits (by simp [errorsOf])⟩
  | sub rd ra rb =>
    exact (BigReg.legal_iff _ _).2
      ⟨hsum ra (by simp [Instr.used]) rb (by simp [Instr.used]) .minus, fits (by simp [errorsOf])⟩
  | mul rd ra rb => exact (BigReg.legal_iff _ _).2 ⟨canonical_mulReg _ _, fits (by simp [errorsOf])⟩
  | cmp | cmpm | cmpu | rdlimb | rdinfo | render => simp [destOf] at dest

theorem Effect.inv {i : Instr} {u : State} (legal : i.wfFor s.params.nreg = true) (h : Effect i s u) :
    u.inv = true ∧ u.params = s.params := by
  cases h with
  | register rd dest fits => exact ⟨State.inv_writeReg hs rd (legal_resultOf hs legal dest fits), rfl⟩
  | res v _ => exact ⟨hs, rfl⟩
  | text ra _ fits => exact ⟨State.inv_memWrite hs fits, by rw [State.memWrite_eq]; rfl⟩

theorem engineTurn_inv {t : State} (h : engineTurn s = .next t) : t.inv = true ∧ t.params = s.params := by
  obtain ⟨-, rfl⟩ | ⟨code, -, rfl⟩ | ⟨i, u, legal, effect, rfl⟩ := engineTurn_cases h
  · exact ⟨hs, rfl⟩
  · exact ⟨State.inv_finish hs code, rfl⟩
  · obtain ⟨hu, hparams⟩ := effect.inv hs legal
    exact ⟨State.inv_finish hu .none, hparams⟩

end

/-! ### The invariant under a host access -/

theorem legalAccess_aligned {bits : Nat} {o : Offset} (h : legalAccess bits o = true) : o.toNat % 4 = 0 := by
  simp only [legalAccess, Bool.and_eq_true, beq_iff_eq] at h
  simpa using congrArg BitVec.toNat h.2

/-- The word of an aligned offset of the window lies inside `TBUF`, whose size is a multiple of 4 (R8, R55). -/
theorem busTarget_tbuf_fits {size index : Nat} {o : Offset} (hsize : size % 4 = 0) (ho : o.toNat % 4 = 0)
    (h : busTarget size o = .tbuf index) : index + 4 ≤ size := by
  unfold busTarget at h
  split_ifs at h with _ _ _ _ _ _ _ _ hwindow
  rw [BusTarget.tbuf.injEq] at h
  omega

theorem busWrite_inv {s : State} (hs : s.inv = true) (hreset : s.resetApplied = false) (d : BusWord)
    {target : BusTarget} (hfits : ∀ index, target = .tbuf index → index + 4 ≤ s.params.tbufSize) :
    (s.busWrite d target).inv = true ∧ (s.busWrite d target).params = s.params := by
  cases target with
  | cmd =>
    refine ⟨State.inv_writeCmd hs hreset d, ?_⟩
    simp only [State.busWrite, State.writeCmd]
    split <;> rfl
  | status => rw [State.busWrite, State.writeStatus_eq]; exact ⟨hs, rfl⟩
  | argLo | argHi | resLo | resHi | param0 | param1 | reserved => exact ⟨hs, rfl⟩
  | tbuf index =>
    rw [State.busWrite]
    split
    · exact ⟨hs, rfl⟩
    · exact ⟨State.inv_memWrite hs (hfits index rfl), by rw [State.memWrite_eq]⟩

theorem runInput_inv {s t : State} (hs : s.inv = true) (i : Input) (h : runInput i s = .next t) :
    t.inv = true ∧ t.params = s.params := by
  cases i with
  | hostRead bits o =>
    rw [runInput, hostRead, hostAccess_next] at h
    obtain ⟨-, -, rfl⟩ := h
    exact ⟨hs, rfl⟩
  | hostWrite bits o d =>
    rw [runInput, hostWrite, hostAccess_next] at h
    obtain ⟨hreset, haccess, rfl⟩ := h
    obtain ⟨-, -, -, -, hsize⟩ := (params_legal_iff _).1 (s.inv_iff.1 hs).1
    exact busWrite_inv hs hreset d fun index => busTarget_tbuf_fits hsize (legalAccess_aligned haccess)
  | engine => exact engineTurn_inv hs h
  | applyReset =>
    cases h
    exact ⟨State.inv_applyReset hs, rfl⟩
  | releaseReset =>
    cases h
    exact ⟨State.inv_releaseReset hs, rfl⟩

/-- Settles O58, by the cases of the input that comes next; the inputs themselves are no part of the invariant. -/
theorem stepKeepsTheInvariant : Obligations.StepKeepsTheInvariant := by
  intro s t hs hstep
  cases hinputs : s.inputs with
  | nil =>
    rw [step_no_input s hinputs] at hstep
    exact engineTurn_inv hs hstep
  | cons i rest =>
    rw [step_input s i rest hinputs] at hstep
    exact runInput_inv (s := { s with inputs := rest }) hs i hstep

end Sys2Proof.Machine
end

section
/-! ## A command's outcome as one equation: the code it leaves and what it writes (R14, R34, R67, R212) -/

namespace Sys2Proof.Machine

/-- The value a command writes to `RES`; 0 for the commands that write a register. -/
def observationOf (s : State) : Instr → Limb
  | .cmp ra rb => compareCode (compareReg (s.reg ra) (s.reg rb) true)
  | .cmpm ra rb => compareCode (compareMag (s.reg ra).mag (s.reg rb).mag)
  | .cmpu ra rb => compareCode (compareReg (s.reg ra) (s.reg rb) false)
  | .rdlimb ra => ((s.reg ra).mag[argIndex s.latched]?).getD 0
  | .rdinfo ra => infoWord (s.reg ra)
  | .render ra => BitVec.ofNat 64 (renderText (s.reg ra)).length
  | .ldi _ | .ldu _ | .mov _ _ | .neg _ _ | .add _ _ _ | .sub _ _ _ | .mul _ _ _ | .parse _ => 0

/-- The bytes a command writes to `TBUF`; only RENDER writes any. -/
def writtenText (s : State) : Instr → List Byte
  | .render ra => renderText (s.reg ra)
  | _ => []

/-- The state with the command's results written. -/
def effectOf (s : State) (i : Instr) : State :=
  match destOf i with
  | some rd => s.writeReg rd (resultOf s i)
  | none => (s.memWrite (argOff s.latched) (writtenText s i)).writeRes (observationOf s i)

/-- The code of a result that must fit `LMAX` limbs (R166, R195). -/
def capacityCode (lmax : Nat) (v : BigReg) : ErrCode := if lmax < v.mag.length then .capacity else .none

/-- The code of a command whose register indexes are legal, in the order of R213. -/
def checkOf (s : State) (i : Instr) : ErrCode :=
  match i with
  | .parse _ =>
    if s.params.tbufSize < argOff s.latched + argLen s.latched then .range
    else if validText (s.memRead (argOff s.latched) (argLen s.latched)) then
      capacityCode s.params.lmax (resultOf s i)
    else .invalidFormat
  | .render ra =>
    if s.params.tbufSize < argOff s.latched + (renderText (s.reg ra)).length then .range else .none
  | .add _ _ _ | .sub _ _ _ | .mul _ _ _ => capacityCode s.params.lmax (resultOf s i)
  | .ldi _ | .ldu _ | .mov _ _ | .neg _ _ | .cmp _ _ | .cmpm _ _ | .cmpu _ _ | .rdlimb _ | .rdinfo _ => .none

/-- The code a command leaves in `STATUS.ERR`. -/
def errorOf (s : State) (i : Instr) : ErrCode :=
  if i.wfFor s.params.nreg then checkOf s i else .illegal

/-- Completion with `code`: the results `u` are kept exactly when the code is no error (R14, R214). -/
def State.complete (s u : State) (code : ErrCode) : State := (if code = .none then u else s).finish code

theorem complete_eq_writeResult (rd : Nat) (v : BigReg) (s : State) :
    .next (s.complete (s.writeReg rd v) (capacityCode s.params.lmax v)) = writeResult rd v s := by
  unfold writeResult capacityCode
  split <;> rfl

theorem complete_eq_withLegal {i : Instr} {s : State} {answer : Answer}
    (h : .next (s.complete (effectOf s i) (checkOf s i)) = answer) :
    .next (s.complete (effectOf s i) (errorOf s i)) = withLegal i.used s answer := by
  unfold errorOf
  split
  · next hlegal => rw [withLegal_legal _ _ _ hlegal, h]
  · next hlegal => rw [withLegal_illegal _ _ _ (Bool.eq_false_iff.2 hlegal)]; rfl

theorem complete_eq_exec_parse (rd : Nat) (s : State) :
    .next (s.complete (effectOf s (.parse rd)) (errorOf s (.parse rd))) = exec (.parse rd) s := by
  refine complete_eq_withLegal ?_
  dsimp only [checkOf]
  split
  · rfl
  · split
    · exact complete_eq_writeResult rd _ s
    · rfl

theorem complete_eq_exec_render (ra : Nat) (s : State) :
    .next (s.complete (effectOf s (.render ra)) (errorOf s (.render ra))) = exec (.render ra) s := by
  refine complete_eq_withLegal ?_
  dsimp only [checkOf]
  split <;> rfl

/-- Every command, in every state, completes with its code, and with its results when that is no error. -/
theorem exec_eq (i : Instr) (s : State) : exec i s = .next (s.complete (effectOf s i) (errorOf s i)) := by
  symm
  cases i with
  | ldi | ldu | mov | neg | cmp | cmpm | cmpu | rdlimb | rdinfo => exact complete_eq_withLegal rfl
  | add rd | sub rd | mul rd => exact complete_eq_withLegal (complete_eq_writeResult rd _ s)
  | parse rd => exact complete_eq_exec_parse rd s
  | render ra => exact complete_eq_exec_render ra s

theorem exec_cases {i : Instr} {s t : State} (h : exec i s = .next t) :
    (errorOf s i ≠ .none ∧ t = s.finish (errorOf s i)) ∨
    (errorOf s i = .none ∧ t = (effectOf s i).finish .none) := by
  rw [exec_eq] at h
  cases h
  unfold State.complete
  split
  · next hnone => exact .inr ⟨hnone, by rw [hnone]⟩
  · next herror => exact .inl ⟨herror, rfl⟩

theorem exec_err {i : Instr} {s t : State} (h : exec i s = .next t) : t.err = errorOf s i := by
  obtain ⟨-, rfl⟩ | ⟨hnone, rfl⟩ := exec_cases h
  · rfl
  · exact hnone.symm

theorem effectOf_of_dest {i : Instr} {rd : Nat} (dest : destOf i = some rd) (s : State) :
    effectOf s i = s.writeReg rd (resultOf s i) := by
  simp [effectOf, dest]

theorem effectOf_of_no_dest {i : Instr} (dest : destOf i = none) (s : State) :
    effectOf s i = (s.memWrite (argOff s.latched) (writtenText s i)).writeRes (observationOf s i) := by
  simp [effectOf, dest]

theorem writtenText_of_not_render {i : Instr} (hrender : ∀ ra, i ≠ .render ra) (s : State) : writtenText s i = [] := by
  cases i with
  | render ra => exact absurd rfl (hrender ra)
  | _ => rfl

theorem destOf_eq_none_of_writesRes {i : Instr} (h : writesRes i = true) : destOf i = none := by
  cases i with
  | cmp | cmpm | cmpu | rdlimb | rdinfo | render => rfl
  | ldi | ldu | mov | neg | add | sub | mul | parse => simp [writesRes] at h

@[simp] theorem State.reg_memWrite (s : State) (a : Nat) (bs : List Byte) (j : Nat) :
    (s.memWrite a bs).reg j = s.reg j := by
  rw [State.memWrite_eq]
  rfl

/-! ### The frames (R34, R36, R40, R67, R140) -/

/-- Settles O12: a register command changes its destination alone, and that only without an error. -/
theorem registerCommandFrame : Obligations.RegisterCommandFrame := by
  intro i rd s t dest h
  obtain ⟨-, rfl⟩ | ⟨-, rfl⟩ := exec_cases h
  · exact ⟨fun _ _ => rfl, fun _ => rfl, rfl⟩
  · rw [effectOf_of_dest dest]
    exact ⟨fun j hj => State.reg_writeReg_other s rd j _ hj, fun _ => rfl, rfl⟩

/-- Settles O13: a comparison or observation changes `RES` alone, and that only without an error. -/
theorem comparisonAndObservationFrame : Obligations.ComparisonAndObservationFrame := by
  intro i s t dest hrender h
  obtain ⟨-, rfl⟩ | ⟨-, rfl⟩ := exec_cases h
  · exact ⟨fun _ => rfl, fun _ => rfl, rfl⟩
  · rw [effectOf_of_no_dest dest, writtenText_of_not_render hrender]
    exact ⟨fun _ => rfl, fun _ => rfl, rfl⟩

/-- Settles O14: RENDER writes its text at `OFF` and `RES`, and those only without an error. -/
theorem renderFrame : Obligations.RenderFrame := by
  intro ra s t h
  obtain ⟨-, rfl⟩ | ⟨-, rfl⟩ := exec_cases h
  · exact ⟨fun _ => rfl, fun _ _ => rfl, rfl⟩
  · rw [effectOf_of_no_dest rfl]
    refine ⟨fun j => by simp, fun a ha => ?_, ?_⟩
    · obtain hlow | hhigh | herr := ha
      · exact State.readByte_memWrite_outside _ s _ a (.inl hlow)
      · exact State.readByte_memWrite_outside _ s _ a (.inr hhigh)
      · exact absurd rfl herr
    · rw [State.memWrite_eq]
      rfl

/-! ### What a command reads (R34, R36, R39, R43, R67, R249) -/

/-- Two states agree on all that a command reads: the parameters, the latched argument, its source
registers and, for PARSE, its text. -/
structure SameSources (i : Instr) (s1 s2 : State) : Prop where
  params : s1.params = s2.params
  latched : s1.latched = s2.latched
  reg : ∀ j ∈ sourcesOf i, s1.reg j = s2.reg j
  text : ∀ rd, i = .parse rd → s1.memRead (argOff s1.latched) (argLen s1.latched) =
    s2.memRead (argOff s2.latched) (argLen s2.latched)

theorem State.memRead_congr {s1 s2 : State} {addr n : Nat}
    (h : ∀ a, addr ≤ a → a < addr + n → s1.readByte a = s2.readByte a) : s1.memRead addr n = s2.memRead addr n :=
  List.map_congr_left fun k hk => h (addr + k) (Nat.le_add_right _ _) (by simpa using hk)

section

variable {i : Instr} {s1 s2 : State}

theorem resultOf_congr (h : SameSources i s1 s2) : resultOf s1 i = resultOf s2 i := by
  obtain ⟨-, hlatched, hreg, htext⟩ := h
  cases i with
  | ldi | ldu => simp only [resultOf, hlatched]
  | parse rd => simp only [resultOf, htext rd rfl]
  | mov | neg | add | sub | mul =>
    simp only [sourcesOf, List.forall_mem_cons] at hreg
    simp only [resultOf, hreg]
  | cmp | cmpm | cmpu | rdlimb | rdinfo | render => rfl

theorem observationOf_congr (h : SameSources i s1 s2) : observationOf s1 i = observationOf s2 i := by
  obtain ⟨-, hlatched, hreg, -⟩ := h
  cases i with
  | cmp | cmpm | cmpu | rdlimb | rdinfo | render =>
    simp only [sourcesOf, List.forall_mem_cons] at hreg
    simp only [observationOf, hreg, hlatched]
  | ldi | ldu | mov | neg | add | sub | mul | parse => rfl

theorem writtenText_congr (h : SameSources i s1 s2) : writtenText s1 i = writtenText s2 i := by
  cases i with
  | render ra => exact congrArg renderText (h.reg ra (by simp [sourcesOf]))
  | _ => rfl

theorem checkOf_congr (h : SameSources i s1 s2) : checkOf s1 i = checkOf s2 i := by
  have hresult := resultOf_congr h
  obtain ⟨hparams, hlatched, hreg, htext⟩ := h
  cases i with
  | parse rd =>
    rw [hlatched] at htext
    simp only [checkOf, hparams, hlatched, htext rd rfl, hresult]
  | render ra => simp only [checkOf, hparams, hlatched, hreg ra (by simp [sourcesOf])]
  | add | sub | mul => simp only [checkOf, hparams, hresult]
  | ldi | ldu | mov | neg | cmp | cmpm | cmpu | rdlimb | rdinfo => rfl

theorem errorOf_congr (h : SameSources i s1 s2) : errorOf s1 i = errorOf s2 i := by
  rw [errorOf, errorOf, checkOf_congr h, h.params]

end

/-- What a register reads after a write to it, at an index of any size. -/
theorem State.reg_writeReg_eq (s : State) (i : Nat) (v : BigReg) :
    (s.writeReg i v).reg i = if i < s.regs.length then v else BigReg.zero := by
  split
  · next hi => exact State.reg_writeReg_same s i v hi
  · next hi => simp [State.reg, hi]

/-- Settles O16: the code, the result, the observation and the text are functions of the sources. -/
theorem commandReadsOnlyItsSources : Obligations.CommandReadsOnlyItsSources := by
  intro i s1 s2 t1 t2 hparams hlength hlatched hreg hbytes h1 h2
  have hsame : SameSources i s1 s2 := ⟨hparams, hlatched, hreg, fun rd hi => by
    rw [← hlatched]; exact State.memRead_congr (hbytes rd hi)⟩
  have herr : t1.err = t2.err := by rw [exec_err h1, exec_err h2, errorOf_congr hsame]
  refine ⟨herr, fun hnone => ?_⟩
  obtain ⟨herror, -⟩ | ⟨-, rfl⟩ := exec_cases h1
  · exact absurd ((exec_err h1).symm.trans hnone) herror
  obtain ⟨herror, -⟩ | ⟨-, rfl⟩ := exec_cases h2
  · exact absurd ((exec_err h2).symm.trans (herr.symm.trans hnone)) herror
  refine ⟨fun rd dest => ?_, fun hres => ?_, ?_⟩
  · simp only [effectOf_of_dest dest, State.reg_finish, State.reg_writeReg_eq, hlength, resultOf_congr hsame]
  · simp only [effectOf_of_no_dest (destOf_eq_none_of_writesRes hres), State.finish_res, State.writeRes_res,
      observationOf_congr hsame]
  · rintro ra rfl a hlow hhigh
    obtain ⟨k, rfl⟩ := Nat.exists_eq_add_of_le hlow
    have hk : k < (writtenText s2 (.render ra)).length := by
      rw [← writtenText_congr hsame]; exact Nat.lt_of_add_lt_add_left hhigh
    simp only [effectOf_of_no_dest (i := .render ra) rfl, State.readByte_finish, State.readByte_writeRes,
      writtenText_congr hsame, hlatched, State.readByte_memWrite_inside _ _ _ k hk]

/-! ### A pending command and later writes to `ARG` -/

theorem State.memWrite_setArg (bs : List Byte) (x : Limb) : ∀ (s : State) (a : Nat),
    ({ s with arg := x } : State).memWrite a bs = { s.memWrite a bs with arg := x } := by
  induction bs with
  | nil => intro s a; rfl
  | cons b bs ih => intro s a; exact ih (s.writeByte a b) (a + 1)

section

variable {s : State} {p : Pending} (hpend : s.pend = some p) (x : Limb)
include hpend

theorem State.latched_setArg : ({ s with arg := x } : State).latched = s.latched := by
  rw [s.latched_pending p hpend]
  exact State.latched_pending _ p hpend

theorem sameSources_setArg (i : Instr) : SameSources i { s with arg := x } s where
  params := rfl
  latched := State.latched_setArg hpend x
  reg _ _ := rfl
  text _ _ := by rw [State.latched_setArg hpend x]; rfl

theorem effectOf_setArg (i : Instr) : effectOf { s with arg := x } i = { effectOf s i with arg := x } := by
  have hsame := sameSources_setArg hpend x i
  cases dest : destOf i with
  | some rd => rw [effectOf_of_dest dest, effectOf_of_dest dest, resultOf_congr hsame]; rfl
  | none =>
    rw [effectOf_of_no_dest dest, effectOf_of_no_dest dest, observationOf_congr hsame, writtenText_congr hsame,
      hsame.latched, State.memWrite_setArg]
    rfl

end

/-- Settles O15: a pending command's code and results do not see `ARG`, only the latched copy. -/
theorem pendingCommandIgnoresLaterArgWrites : Obligations.PendingCommandIgnoresLaterArgWrites := by
  intro i s t p x hpend h
  rw [exec_eq] at h ⊢
  cases h
  rw [errorOf_congr (sameSources_setArg hpend x i), effectOf_setArg hpend x]
  unfold State.complete
  split <;> rfl

end Sys2Proof.Machine
end

section
/-! ## Reachable states (R31, R32) and reset (R47, R240) -/

namespace Sys2Proof.Machine

/-- A run of `k + 1` steps with a next state is one step with a next state and a run of `k` from there. -/
theorem core_run_succ {M : Host.Core} {k : Nat} {s t : M.State} (h : M.run (k + 1) s = .next t) :
    ∃ u, M.step s = .next u ∧ M.run k u = .next t := by
  rw [Host.Core.run] at h
  split at h
  · next u hu => exact ⟨u, hu, h⟩
  · cases h
  · cases h

/-- What every step keeps, every run keeps. -/
theorem core_run_keeps {M : Host.Core} {P : M.State → Prop} (hstep : ∀ s t, P s → M.step s = .next t → P t)
    (k : Nat) : ∀ {s t : M.State}, P s → M.run k s = .next t → P t := by
  induction k with
  | zero =>
    intro s t hs hrun
    cases hrun
    exact hs
  | succ k ih =>
    intro s t hs hrun
    obtain ⟨u, hu, hrest⟩ := core_run_succ hrun
    exact ih (hstep s u hs hu) hrest

/-- Every run keeps the invariant and the parameters. -/
theorem run_inv {k : Nat} {s t : State} (hs : s.inv = true) (h : Sys2Proof.core.run k s = .next t) :
    t.inv = true ∧ t.params = s.params :=
  core_run_keeps (M := Sys2Proof.core) (P := fun (u : State) => u.inv = true ∧ u.params = s.params)
    (fun u v ⟨hu, hparams⟩ hstep => (stepKeepsTheInvariant u v hu hstep).imp_right fun hv => hv.trans hparams)
    k ⟨hs, rfl⟩ h

/-- A legal register value by the parts of R31 and R32. -/
theorem BigReg.legal_parts {lmax : Nat} {r : BigReg} (h : r.legal lmax = true) :
    1 ≤ r.mag.length ∧ r.mag.length ≤ lmax ∧ (r.mag.getLast? ≠ some 0 ∨ r.mag.length = 1) ∧
    (magValue r.mag = 0 → r.neg = false) ∧ r.val.natAbs < 2 ^ (64 * lmax) ∧ r = enc r.val := by
  obtain ⟨hcanon, hlength⟩ := (BigReg.legal_iff lmax r).1 h
  obtain ⟨hmag, hsign⟩ := (BigReg.canonical_iff r).1 hcanon
  have henc := BigReg.eq_enc_val hcanon
  rw [henc, legal_enc_iff] at h
  simp only [canonicalMag, Bool.and_eq_true, Bool.or_eq_true, decide_eq_true_eq, bne_iff_ne] at hmag
  obtain ⟨hpos, htop⟩ := hmag
  refine ⟨hpos, hlength, htop.symm, fun hzero => ?_, h.2, henc⟩
  exact Bool.eq_false_iff.2 fun hneg => hsign hneg hzero

/-- Settles O59: the reset state meets the invariant, whose registers are legal, and every run keeps it. -/
theorem reachableRegistersAreCanonical : Obligations.ReachableRegistersAreCanonical := by
  intro p inputs k t i hp hrun hi
  obtain ⟨ht, hparams⟩ := run_inv (s := { State.resetFor p with inputs := inputs }) (inv_resetFor hp) hrun
  obtain rfl : t.params = p := hparams
  obtain ⟨-, hlength, -⟩ := t.inv_iff.1 ht
  exact ⟨hlength, BigReg.legal_parts (State.inv_reg_legal ht hi)⟩

theorem statusWord_resetFor (p : Config.Params) : (State.resetFor p).statusWord = 0 := by
  change (0#24 ++ ErrCode.none.code ++ 0#2 ++ BitVec.ofBool false ++ BitVec.ofBool false : BusWord) = 0
  decide

/-- Settles O55: each reset value is the one the record of the reset state holds. -/
theorem resetStateValues : Obligations.ResetStateValues := by
  refine ⟨fun p => ⟨List.length_replicate, fun i hi => ?_, rfl, rfl, rfl, rfl, rfl, rfl, rfl,
    statusWord_resetFor p, rfl, rfl, fun _ => rfl⟩, by decide, rfl, by decide, by decide⟩
  exact List.getElem?_replicate_of_lt hi

/-- Settles O56: the two reset edges, as the inputs that come next. -/
theorem resetRestoresTheResetState : Obligations.ResetRestoresTheResetState := by
  intro s rest
  constructor
  · intro hinputs
    rw [step_input s _ rest hinputs]
    exact ⟨s.tbufDraw + 1, Nat.lt_succ_self _, rfl⟩
  · intro hinputs
    rw [step_input s _ rest hinputs]
    rfl

end Sys2Proof.Machine
end

section
/-! ## The host's reads and writes of STATUS, the constants and the reserved offsets (R37 to R42, R51 to R53) -/

namespace Sys2Proof.Machine

/-! ### A legal access as a step (R51) -/

theorem legalAccess_of_aligned {o : Offset} (h : o.toNat % 4 = 0) : legalAccess 32 o = true := by
  have : o.extractLsb' 0 2 = 0#2 := BitVec.eq_of_toNat_eq (by simpa using h)
  simp [legalAccess, this]

section

variable {s : State} {o : Offset} {rest : List Input} (hreset : s.resetApplied = false) (haligned : o.toNat % 4 = 0)
include hreset haligned

theorem step_hostRead (hinputs : s.inputs = .hostRead 32 o :: rest) :
    step s = .next { s with inputs := rest, readData := some (s.busRead (busTarget s.params.tbufSize o)) } := by
  rw [step_input s _ rest hinputs, runInput, hostRead, hostAccess_next]
  refine ⟨hreset, legalAccess_of_aligned haligned, ?_⟩
  cases busTarget s.params.tbufSize o <;> rfl

theorem step_hostWrite {d : BusWord} (hinputs : s.inputs = .hostWrite 32 o d :: rest) :
    step s = .next (({ s with inputs := rest } : State).busWrite d (busTarget s.params.tbufSize o)) := by
  rw [step_input s _ rest hinputs, runInput, hostWrite, hostAccess_next]
  exact ⟨hreset, legalAccess_of_aligned haligned, rfl⟩

end

/-! ### The fields of STATUS (R38, R43, R211) -/

section

variable (s : State)

theorem State.statusWord_busy : s.statusWord.getLsbD 0 = s.busy :=
  BitVec.getLsbD_append.trans (by simp)

theorem State.statusWord_ovr : s.statusWord.getLsbD 1 = s.ovr :=
  BitVec.getLsbD_append.trans (BitVec.getLsbD_append.trans (by simp))

/-- The fields above BUSY and OVR. -/
theorem State.statusWord_above {start : Nat} (len : Nat) (h : 2 ≤ start) :
    s.statusWord.extractLsb' start len = (0#24 ++ s.err.code ++ 0#2).extractLsb' (start - 1 - 1) len :=
  (BitVec.extractLsb'_append_eq_of_le (by omega)).trans (BitVec.extractLsb'_append_eq_of_le (by omega))

theorem State.statusWord_reserved_low : s.statusWord.extractLsb' 2 2 = 0 :=
  (s.statusWord_above 2 (by decide)).trans BitVec.extractLsb'_append_eq_right

theorem State.statusWord_err : s.statusWord.extractLsb' 4 4 = s.err.code := by
  rw [s.statusWord_above 4 (by decide), BitVec.extractLsb'_append_eq_of_le (by decide)]
  exact BitVec.extractLsb'_append_eq_right

theorem State.statusWord_reserved_high : s.statusWord.extractLsb' 8 24 = 0 := by
  rw [s.statusWord_above 24 (by decide), BitVec.extractLsb'_append_eq_of_le (by decide)]
  exact BitVec.extractLsb'_append_eq_left

theorem State.busy_iff : s.busy = true ↔ s.pend ≠ none := Option.isSome_iff_ne_none

end

/-- Settles O48: the word is STATUS's fields in a row, and the write is `State.writeStatus`. -/
theorem statusFieldsAndWriteOneToClear : Obligations.StatusFieldsAndWriteOneToClear := by
  intro s d rest hreset
  refine ⟨fun hinputs => ⟨s.statusWord, step_hostRead hreset (by decide) hinputs, ?_⟩, fun hinputs => ?_⟩
  · refine ⟨by rw [s.statusWord_busy, s.busy_iff], s.statusWord_ovr, s.statusWord_reserved_low, ?_, s.statusWord_reserved_high⟩
    rw [s.statusWord_err]
    cases s.err <;> rfl
  · rw [step_hostWrite hreset (by decide) hinputs]
    exact congrArg _ (State.writeStatus_eq _ d)

/-! ### The parameter words (R8, R41, R42) -/

section

variable {p : Config.Params} (hp : p.legal = true)
include hp

theorem param0_nreg : ((param0 p).extractLsb' 0 8).toNat = p.nreg := by
  obtain ⟨⟨-, hnreg⟩, -, -⟩ := (params_legal_iff p).1 hp
  have hfield : (param0 p).extractLsb' 0 8 = BitVec.ofNat 8 p.nreg := BitVec.extractLsb'_append_eq_right
  rw [hfield, BitVec.toNat_ofNat]
  omega

theorem param0_lmax : ((param0 p).extractLsb' 16 16).toNat = p.lmax := by
  obtain ⟨-, ⟨-, hlmax⟩, -⟩ := (params_legal_iff p).1 hp
  have hfield : (param0 p).extractLsb' 16 16 = BitVec.ofNat 16 p.lmax :=
    (BitVec.extractLsb'_append_eq_of_le (by decide)).trans BitVec.extractLsb'_append_eq_left
  rw [hfield, BitVec.toNat_ofNat]
  omega

theorem toNat_param1 : (param1 p).toNat = p.tbufSize := by
  obtain ⟨-, -, -, hsize, -⟩ := (params_legal_iff p).1 hp
  rw [param1, BitVec.toNat_ofNat]
  omega

end

theorem param0_version (p : Config.Params) : (param0 p).extractLsb' 8 8 = BitVec.ofNat 8 Config.version :=
  (BitVec.extractLsb'_append_eq_of_le (by decide)).trans BitVec.extractLsb'_append_eq_right

/-! ### The register map (R52, R53) -/

/-- The offsets above the registers and outside the window name nothing (R52). -/
theorem busTarget_reserved {size : Nat} {o : Offset}
    (h : (0x0020 ≤ o.toNat ∧ o.toNat ≤ 0x7FFC) ∨ 0x8000 + size ≤ o.toNat) : busTarget size o = .reserved := by
  have hregister : ∀ c : Offset, c.toNat < 0x20 → o ≠ c := by rintro c hc rfl; omega
  have hwindow : ¬(0x8000 ≤ o.toNat ∧ o.toNat < 0x8000 + size) := by omega
  simp [busTarget, hregister, hwindow]

/-- The offsets above `ARG` and outside the window are read-only or reserved: a write there has no effect (R53). -/
theorem State.busWrite_ignored {size : Nat} {o : Offset}
    (h : (0x0010 ≤ o.toNat ∧ o.toNat ≤ 0x7FFC) ∨ 0x8000 + size ≤ o.toNat) (s : State) (d : BusWord) :
    s.busWrite d (busTarget size o) = s := by
  have hregister : ∀ c : Offset, c.toNat < 0x10 → o ≠ c := by rintro c hc rfl; omega
  have hwindow : ¬(0x8000 ≤ o.toNat ∧ o.toNat < 0x8000 + size) := by omega
  simp only [busTarget, hregister 0x0000 (by decide), hregister 0x0004 (by decide), hregister 0x0008 (by decide),
    hregister 0x000C (by decide), hwindow, if_false]
  split_ifs <;> rfl

/-- Settles O50: the constants by their fields, the other offsets by the register map. -/
theorem constantAndReservedOffsets : Obligations.ConstantAndReservedOffsets := by
  refine ⟨by decide, fun s o d rest hlegal hreset haligned => ⟨fun hinputs => ?_, fun hinputs hoffset => ?_⟩⟩
  · refine ⟨_, step_hostRead hreset haligned hinputs, ?_, ?_, ?_⟩
    · rintro rfl
      exact ⟨rfl, param0_nreg hlegal, congrArg BitVec.toNat (param0_version s.params), param0_lmax hlegal⟩
    · rintro rfl
      exact ⟨rfl, toNat_param1 hlegal⟩
    · rintro (rfl | hreserved)
      · rfl
      · rw [busTarget_reserved hreserved]
        rfl
  · rw [step_hostWrite hreset haligned hinputs, State.busWrite_ignored hoffset]

end Sys2Proof.Machine
end

section
/-! ## Host accesses: which are refused, what they leave alone, and the registers and window they reach
(R39, R40, R51, R54, R55, R60, R61, R217, R240) -/

namespace Sys2Proof.Machine

/-! ### The answer to a host access (R51, R217, R240) -/

/-- A legal access is 32 bits wide at an offset that is a multiple of 4 (R51). -/
theorem legalAccess_iff (bits : Nat) (o : Offset) : legalAccess bits o = true ↔ bits = 32 ∧ o.toNat % 4 = 0 := by
  constructor
  · intro h
    have hbits : bits = 32 := by
      rw [legalAccess, Bool.and_eq_true] at h
      exact beq_iff_eq.1 h.1
    exact ⟨hbits, legalAccess_aligned h⟩
  · rintro ⟨rfl, haligned⟩
    exact legalAccess_of_aligned haligned

/-- The answer to a host access, a read or a write: reset comes first, then the form of the access (log 9). -/
theorem step_hostAccess {s : State} {bits : Nat} {o : Offset} {d : BusWord} {rest : List Input}
    (h : s.inputs = .hostRead bits o :: rest ∨ s.inputs = .hostWrite bits o d :: rest) :
    ∃ t, step s = if s.resetApplied then .refused .hostAccessDuringReset
      else if legalAccess bits o then .next t else .refused .hostAccessForm := by
  obtain hread | hwrite := h
  · exact ⟨_, step_input s _ rest hread⟩
  · exact ⟨_, step_input s _ rest hwrite⟩

/-- Settles O53: each hypothesis picks one case of the answer. -/
theorem onlyProtocolViolationsAreRefused : Obligations.OnlyProtocolViolationsAreRefused := by
  intro s bits o d rest hinputs
  obtain ⟨t, hstep⟩ := step_hostAccess hinputs
  have hduringReset (hreset : s.resetApplied = true) : step s = .refused .hostAccessDuringReset := by
    rw [hstep, if_pos hreset]
  refine ⟨fun hreset hbits haligned => ⟨t, ?_⟩, fun hreset hform => ?_, fun hreset _ _ => hduringReset hreset,
    fun hreset => ⟨_, hduringReset hreset⟩⟩
  · rw [hstep, hreset, if_neg Bool.false_ne_true, if_pos ((legalAccess_iff bits o).2 ⟨hbits, haligned⟩)]
  · have hillegal : ¬legalAccess bits o = true := by
      rw [legalAccess_iff]
      omega
    rw [hstep, hreset, if_neg Bool.false_ne_true, if_neg hillegal]

/-! ### What a host write leaves alone (R60, R247) -/

/-- A bus write reaches `ARG`, `OVR`, the pending latch and the text buffer, and nothing else. -/
theorem State.busWrite_eq (s : State) (d : BusWord) (target : BusTarget) :
    s.busWrite d target = { s with
      arg := (s.busWrite d target).arg
      ovr := (s.busWrite d target).ovr
      pend := (s.busWrite d target).pend
      tbuf := (s.busWrite d target).tbuf } := by
  cases target with
  | cmd =>
    simp only [State.busWrite, State.writeCmd]
    split <;> rfl
  | status => simp only [State.busWrite, State.writeStatus_eq]
  | argLo | argHi | resLo | resHi | param0 | param1 | reserved => rfl
  | tbuf index =>
    simp only [State.busWrite]
    split
    · rfl
    · exact State.memWrite_eq _ s index

/-- A pending command stays pending: only a CMD write could replace it, and that one is dropped (R247). -/
theorem State.pend_busWrite {s : State} {p : Pending} (hpend : s.pend = some p) (d : BusWord) (target : BusTarget) :
    (s.busWrite d target).pend = some p := by
  cases target with
  | cmd => simpa only [State.busWrite, s.writeCmd_busy d p hpend] using hpend
  | status => simpa only [State.busWrite, State.writeStatus_eq] using hpend
  | argLo | argHi | resLo | resHi | param0 | param1 | reserved => exact hpend
  | tbuf index => simpa only [State.busWrite, s.busy_pending p hpend, if_true] using hpend

/-- Settles O54: a read keeps the word alone, and a write is a `busWrite`. -/
theorem hostAccessFrame : Obligations.HostAccessFrame := by
  constructor
  · intro s t bits o rest hinputs hstep
    rw [step_input s _ rest hinputs, runInput, hostRead, hostAccess_next] at hstep
    obtain ⟨-, -, rfl⟩ := hstep
    rfl
  · intro s t bits o d rest hinputs hstep
    rw [step_input s _ rest hinputs, runInput, hostWrite, hostAccess_next] at hstep
    obtain ⟨-, -, rfl⟩ := hstep
    have hpending (p : Pending) (hpend : s.pend = some p) :=
      State.pend_busWrite (s := { s with inputs := rest }) hpend d (busTarget s.params.tbufSize o)
    rw [State.busWrite_eq]
    exact ⟨rfl, rfl, rfl, rfl, hpending, rfl, rfl, rfl, rfl⟩

/-! ### ARG and RES (R39, R40, R54) -/

/-- Settles O49: each of the offsets is one register half in the register map. -/
theorem argAndResAreTwoBusWords : Obligations.ArgAndResAreTwoBusWords := by
  intro s d rest hreset
  refine ⟨step_hostWrite hreset (by decide), step_hostWrite hreset (by decide), step_hostRead hreset (by decide),
    step_hostRead hreset (by decide), step_hostRead hreset (by decide), step_hostRead hreset (by decide), ?_⟩
  rintro (hinputs | hinputs)
  · exact step_hostWrite hreset (by decide) hinputs
  · exact step_hostWrite hreset (by decide) hinputs

/-! ### The window of TBUF (R55, R61) -/

/-- The offset of word `k` of the window. -/
abbrev windowOffset (k : Nat) : Offset := BitVec.ofNat 16 (0x8000 + 4 * k)

section

variable {p : Config.Params} (hlegal : p.legal = true) {k : Nat} (hk : k < p.tbufSize / 4)
include hlegal hk

/-- The window lies inside the offset space (R8, R50). -/
theorem toNat_windowOffset : (windowOffset k).toNat = 0x8000 + 4 * k := by
  obtain ⟨-, -, -, hsize, -⟩ := (params_legal_iff p).1 hlegal
  rw [BitVec.toNat_ofNat]
  omega

theorem windowOffset_aligned : (windowOffset k).toNat % 4 = 0 := by
  rw [toNat_windowOffset hlegal hk]
  omega

theorem busTarget_windowOffset : busTarget p.tbufSize (windowOffset k) = .tbuf (4 * k) := by
  have hoffset := toNat_windowOffset hlegal hk
  have hregister : ∀ c : Offset, c.toNat < 0x8000 → windowOffset k ≠ c := by
    rintro c hc rfl
    omega
  have hwindow : 0x8000 ≤ 0x8000 + 4 * k ∧ 0x8000 + 4 * k < 0x8000 + p.tbufSize := by omega
  simp [busTarget, hregister, hoffset, hwindow]

end

section

variable {s : State} {k : Nat} {rest : List Input} (hlegal : s.params.legal = true) (hreset : s.resetApplied = false)
  (hk : k < s.params.tbufSize / 4)
include hlegal hreset hk

theorem step_readWindow (hinputs : s.inputs = .hostRead 32 (windowOffset k) :: rest) :
    step s = .next { s with inputs := rest, readData := some (if s.busy then 0 else s.windowWord (4 * k)) } := by
  rw [step_hostRead hreset (windowOffset_aligned hlegal hk) hinputs, busTarget_windowOffset hlegal hk]
  rfl

theorem step_writeWindow {d : BusWord} (hinputs : s.inputs = .hostWrite 32 (windowOffset k) d :: rest) :
    step s = .next (if s.busy then { s with inputs := rest }
      else ({ s with inputs := rest } : State).memWrite (4 * k) (wordBytes d)) := by
  rw [step_hostWrite hreset (windowOffset_aligned hlegal hk) hinputs, busTarget_windowOffset hlegal hk]
  rfl

end

/-- Byte `j` of a bus word is its lane `j` (R55). -/
theorem getElem_wordBytes (d : BusWord) : ∀ (j : Nat) (hj : j < (wordBytes d).length),
    (wordBytes d)[j] = d.extractLsb' (8 * j) 8
  | 0, _ | 1, _ | 2, _ | 3, _ => rfl
  | _ + 4, hj => absurd hj (by simp [wordBytes])

/-- Lane `j` of the window's word is byte `j` (R55). -/
theorem State.extractLsb'_windowWord (s : State) (index : Nat) : ∀ j, j < 4 →
    (s.windowWord index).extractLsb' (8 * j) 8 = s.readByte (index + j)
  | 0, _ => BitVec.extractLsb'_append_eq_right
  | 1, _ => (BitVec.extractLsb'_append_eq_of_le (by decide)).trans BitVec.extractLsb'_append_eq_right
  | 2, _ => (BitVec.extractLsb'_append_eq_of_le (by decide)).trans <|
      (BitVec.extractLsb'_append_eq_of_le (by decide)).trans BitVec.extractLsb'_append_eq_right
  | 3, _ => (BitVec.extractLsb'_append_eq_of_le (by decide)).trans <|
      (BitVec.extractLsb'_append_eq_of_le (by decide)).trans BitVec.extractLsb'_append_eq_left
  | _ + 4, hj => absurd hj (by omega)

/-- Settles O51: an idle block's window write is a `memWrite` of the word's four bytes. -/
theorem tbufWindowByteLanes : Obligations.TbufWindowByteLanes := by
  intro s k d rest hlegal hreset hpend hk
  have hidle := s.busy_idle hpend
  constructor
  · intro hinputs
    have hstep := step_writeWindow hlegal hreset hk hinputs
    rw [hidle] at hstep
    refine ⟨_, hstep, State.memWrite_eq _ _ _, fun j hj => ?_, fun a ha => ?_⟩
    · exact (State.readByte_memWrite_inside (wordBytes d) _ _ j hj).trans (getElem_wordBytes d j hj)
    · exact State.readByte_memWrite_outside _ _ _ a ha
  · intro hinputs
    have hstep := step_readWindow hlegal hreset hk hinputs
    rw [hidle] at hstep
    exact ⟨_, hstep, s.extractLsb'_windowWord (4 * k)⟩

/-- Settles O52: a pending command makes the block busy, and that alone decides. -/
theorem tbufWindowIsLockedWhileBusy : Obligations.TbufWindowIsLockedWhileBusy := by
  intro s p k d rest hlegal hreset hpend hk
  have hbusy := s.busy_pending p hpend
  refine ⟨fun hinputs => ?_, fun hinputs => ?_⟩
  · rw [step_readWindow hlegal hreset hk hinputs, if_pos hbusy]
  · rw [step_writeWindow hlegal hreset hk hinputs, if_pos hbusy]

end Sys2Proof.Machine
end

section
/-! ## Decoding an encoded command (R71 to R75, R78, R82) -/

namespace Sys2Proof

/-! ### The fields of an encoded word (R71, R82) -/

section

variable {opc rd ra rb : Nat}

theorem rdField_encodeFields (hrd : rd < 16) (hra : ra < 16) (hrb : rb < 16) :
    rdField (encodeFields opc rd ra rb) = rd := by
  simp only [rdField, encodeFields, BitVec.toNat_ofNat]
  omega

theorem raField_encodeFields (hra : ra < 16) (hrb : rb < 16) : raField (encodeFields opc rd ra rb) = ra := by
  simp only [raField, encodeFields, BitVec.toNat_ofNat]
  omega

theorem rbField_encodeFields (hrb : rb < 16) : rbField (encodeFields opc rd ra rb) = rb := by
  simp only [rbField, encodeFields, BitVec.toNat_ofNat]
  omega

theorem zField_encodeFields : zField (encodeFields opc rd ra rb) = 0 := by
  simp only [zField, encodeFields, BitVec.toNat_ofNat]
  omega

end

/-- The word of a well-formed command decodes to the command: its indexes fit the four bits of their
fields, so each format reads back the fields that the encoder wrote. -/
theorem decodeFor_encode {nreg : Nat} (hnreg : nreg ≤ 16) {i : Instr} (h : i.wfFor nreg = true) :
    decodeFor nreg (encode i) = .ok i := by
  have hfits : ∀ j ∈ i.used, j < 16 := fun j hj =>
    (of_decide_eq_true (List.all_eq_true.1 h j hj)).trans_le hnreg
  cases i with
  | _ =>
    simp only [Instr.used, List.forall_mem_cons] at hfits
    simp only [Instr.wfFor, Instr.used] at h
    simp (disch := omega) [encode, decodeFor, Laws.opcField_encodeFields, decodeRRR, decodeRR, decodeD, decodeS,
      decodeSS, checked, rdField_encodeFields, raField_encodeFields, rbField_encodeFields, zField_encodeFields, h]

end Sys2Proof
end

section
/-! ## The issue sequence of a command (R80, R242, R243) -/

namespace Sys2Proof.Machine

/-! ### Runs in parts -/

theorem core_run_add {M : Host.Core} (k : Nat) : ∀ {j : Nat} {s u : M.State}, M.run j s = .next u →
    M.run (j + k) s = M.run k u := by
  intro j
  induction j with
  | zero =>
    intro s u h
    cases h
    rw [Nat.zero_add]
  | succ j ih =>
    intro s u h
    obtain ⟨v, hstep, hrest⟩ := core_run_succ h
    rw [Nat.succ_add, Host.Core.run, hstep]
    exact ih hrest

theorem core_run_of_step {M : Host.Core} {s u : M.State} (h : M.step s = .next u) (k : Nat) :
    M.run (k + 1) s = M.run k u := by
  rw [Host.Core.run, h]

/-! ### A command and the model's own fields -/

theorem State.memWrite_setModelFields (inputs : List Input) (word : Option BusWord) (bs : List Byte) :
    ∀ (s : State) (a : Nat), ({ s with inputs := inputs, readData := word } : State).memWrite a bs =
      { s.memWrite a bs with inputs := inputs, readData := word } := by
  induction bs with
  | nil => intro s a; rfl
  | cons b bs ih => intro s a; exact ih (s.writeByte a b) (a + 1)

theorem sameSources_setModelFields (s : State) (i : Instr) (inputs : List Input) (word : Option BusWord) :
    SameSources i { s with inputs := inputs, readData := word } s :=
  ⟨rfl, rfl, fun _ _ => rfl, fun _ _ => rfl⟩

theorem effectOf_setModelFields (s : State) (i : Instr) (inputs : List Input) (word : Option BusWord) :
    effectOf { s with inputs := inputs, readData := word } i =
      { effectOf s i with inputs := inputs, readData := word } := by
  have hsame := sameSources_setModelFields s i inputs word
  cases dest : destOf i with
  | some rd => rw [effectOf_of_dest dest, effectOf_of_dest dest, resultOf_congr hsame]; rfl
  | none =>
    rw [effectOf_of_no_dest dest, effectOf_of_no_dest dest, observationOf_congr hsame, writtenText_congr hsame,
      State.memWrite_setModelFields]
    rfl

/-- No command sees the inputs to come or the word the host has read (log 4, log 6). -/
theorem exec_setModelFields {i : Instr} {s t : State} (h : exec i s = .next t) (inputs : List Input)
    (word : Option BusWord) :
    exec i { s with inputs := inputs, readData := word } = .next { t with inputs := inputs, readData := word } := by
  have hsame := sameSources_setModelFields s i inputs word
  rw [exec_eq] at h ⊢
  cases h
  rw [errorOf_congr hsame, effectOf_setModelFields]
  unfold State.complete
  split <;> rfl

/-- A command empties the latch and leaves the reset input alone (R214). -/
theorem exec_pend_resetApplied {i : Instr} {s t : State} (h : exec i s = .next t) :
    t.pend = none ∧ t.resetApplied = s.resetApplied := by
  have hexec := exec_completion i s
  rw [h] at hexec
  cases hexec with
  | error => exact ⟨rfl, rfl⟩
  | effect _ effect =>
    refine ⟨rfl, ?_⟩
    cases effect with
    | register | res => rfl
    | text => rw [State.memWrite_eq]; rfl

/-! ### The parts of the sequence (R54, R80) -/

theorem highWord_append_lowWord (a : Limb) : highWord a ++ lowWord a = a :=
  (BitVec.extractLsb'_append_extractLsb'_eq_extractLsb' rfl).trans BitVec.extractLsb'_eq_self

theorem lowWord_append (x y : BusWord) : lowWord (x ++ y) = y := BitVec.extractLsb'_append_eq_right

/-- The accesses of `issue` that write the argument, if there is one. -/
def argAccesses (A : Option Limb) : List Input := (A.map argWrites).getD []

/-- The accesses of `issue` from the CMD write on. -/
def commandAccesses (c : BusWord) : List Input := [.hostWrite 32 0x0000 c, .engine, .hostRead 32 0x0004]

theorem issue_eq (c : BusWord) (A : Option Limb) :
    issue c A = .hostRead 32 0x0004 :: (argAccesses A ++ commandAccesses c) := rfl

section

variable {s : State} {rest : List Input} (hreset : s.resetApplied = false)
include hreset

/-- The argument writes put the whole argument into `ARG`, and nothing where there is none. -/
theorem run_argAccesses (A : Option Limb) (hinputs : s.inputs = argAccesses A ++ rest) :
    Sys2Proof.core.run (argAccesses A).length s = .next { s with inputs := rest, arg := A.getD s.arg } := by
  cases A with
  | none =>
    obtain rfl : s.inputs = rest := hinputs
    rfl
  | some a =>
    have hlow := step_hostWrite hreset (by decide) hinputs
    have hhigh := step_hostWrite (s := { s with inputs := _, arg := highWord s.arg ++ lowWord a }) hreset
      (by decide) (d := highWord a) (o := 0x000C) (rest := rest) rfl
    refine (core_run_of_step hlow 1).trans ((core_run_of_step hhigh 0).trans ?_)
    have harg : highWord a ++ lowWord (highWord s.arg ++ lowWord a) = a := by
      rw [lowWord_append, highWord_append_lowWord]
    exact congrArg (fun x => Host.Outcome.next { s with inputs := rest, arg := x }) harg

/-- A CMD write to an idle block, the engine's turn and a read of STATUS run the word's command with
`ARG` latched, and the read returns the STATUS of the completed command. -/
theorem run_commandAccesses {c : BusWord} {i : Instr} {t : State} (hidle : s.pend = none)
    (hdecode : decodeFor s.params.nreg c = .ok i)
    (hinputs : s.inputs = commandAccesses c ++ rest)
    (hexec : exec i { s with pend := some ⟨c, s.arg⟩ } = .next t) :
    Sys2Proof.core.run (commandAccesses c).length s = .next { t with inputs := rest, readData := some t.statusWord } := by
  obtain ⟨-, htreset⟩ := exec_pend_resetApplied hexec
  have haccept : step s =
      .next { s with inputs := .engine :: .hostRead 32 0x0004 :: rest, pend := some ⟨c, s.arg⟩ } := by
    rw [step_hostWrite hreset (by decide) hinputs]
    exact congrArg _ (State.writeCmd_idle _ c hidle)
  have hengine : step { s with inputs := .engine :: .hostRead 32 0x0004 :: rest, pend := some ⟨c, s.arg⟩ } =
      .next { t with inputs := .hostRead 32 0x0004 :: rest, readData := s.readData } := by
    rw [step_input _ _ _ rfl, runInput, engineTurn_command _ _ i rfl hdecode]
    exact exec_setModelFields hexec (.hostRead 32 0x0004 :: rest) s.readData
  have hread := step_hostRead (s := { t with inputs := .hostRead 32 0x0004 :: rest, readData := s.readData })
    (o := 0x0004) (htreset.trans hreset) (by decide) rfl
  exact (core_run_of_step haccept 2).trans <| (core_run_of_step hengine 1).trans (core_run_of_step hread 0)

end

/-- Settles O47: the poll, the argument writes, and the command with the read of STATUS. -/
theorem issueSequenceRunsTheCommand : Obligations.IssueSequenceRunsTheCommand := by
  intro i A s rest hwf hnreg hidle hreset hinputs
  obtain ⟨t, hexec⟩ : ∃ t, exec i { s with arg := A.getD s.arg, pend := some ⟨encode i, A.getD s.arg⟩ } = .next t :=
    ⟨_, exec_eq i _⟩
  obtain ⟨htpend, -⟩ := exec_pend_resetApplied hexec
  refine ⟨t, t.statusWord, hexec, ?_, by rw [t.statusWord_busy, t.busy_idle htpend], t.statusWord_err⟩
  rw [issue_eq, List.cons_append, List.append_assoc] at hinputs
  have hpoll := step_hostRead hreset (by decide) hinputs
  have hargs := run_argAccesses (rest := commandAccesses (encode i) ++ rest)
    (s := { s with inputs := argAccesses A ++ (commandAccesses (encode i) ++ rest), readData := some s.statusWord })
    hreset A rfl
  have hcommand := run_commandAccesses
    (s := { s with inputs := commandAccesses (encode i) ++ rest, readData := some s.statusWord, arg := A.getD s.arg })
    hreset hidle (decodeFor_encode hnreg hwf) rfl (exec_setModelFields hexec _ (some s.statusWord))
  calc Sys2Proof.core.run (issue (encode i) A).length s
    _ = Sys2Proof.core.run (argAccesses A ++ commandAccesses (encode i)).length _ := core_run_of_step hpoll _
    _ = Sys2Proof.core.run (commandAccesses (encode i)).length _ := by
      rw [List.length_append]
      exact core_run_add _ hargs
    _ = .next { t with inputs := rest, readData := some t.statusWord } := hcommand

end Sys2Proof.Machine
end

section
/-! ## The fields of a command word (R71, R75, R82) -/

namespace Sys2Proof

/-- The five fields are all the bits of a word (R71). -/
theorem word_ext_iff {c d : BusWord} : c = d ↔
    opcField c = opcField d ∧ rdField c = rdField d ∧ raField c = raField d ∧ rbField c = rbField d ∧
      zField c = zField d := by
  rw [← BitVec.toNat_inj]
  simp only [opcField, rdField, raField, rbField, zField]
  omega

/-- A word is made of an opcode and three indexes exactly when they are its fields and `Z` is 0 (R82). -/
theorem encodeFields_eq_iff {c : BusWord} {opc rd ra rb : Nat} (hopc : opc < 256) (hrd : rd < 16) (hra : ra < 16)
    (hrb : rb < 16) : encodeFields opc rd ra rb = c ↔
      opcField c = opc ∧ rdField c = rd ∧ raField c = ra ∧ rbField c = rb ∧ zField c = 0 := by
  rw [eq_comm, word_ext_iff, Laws.opcField_encodeFields _ _ _ _ hopc hrd hra hrb, rdField_encodeFields hrd hra hrb,
    raField_encodeFields hra hrb, rbField_encodeFields hrb, zField_encodeFields]

theorem toNat_append_eq_add {m n : Nat} (x : BitVec m) (y : BitVec n) :
    (x ++ y).toNat = x.toNat * 2 ^ n + y.toNat := by
  rw [BitVec.toNat_append, ← Nat.shiftLeft_add_eq_or_of_lt y.isLt, Nat.shiftLeft_eq]

theorem encodeFields_eq_append (opc : BitVec 8) (rd ra rb : BitVec 4) :
    encodeFields opc.toNat rd.toNat ra.toNat rb.toNat = opc ++ rd ++ ra ++ rb ++ 0#12 := by
  apply BitVec.eq_of_toNat_eq
  simp only [toNat_append_eq_add, encodeFields, BitVec.toNat_ofNat]
  omega

section

variable (c : BusWord)

theorem opcField_lt : opcField c < 256 := by have := c.isLt; simp only [opcField]; omega
theorem rdField_lt : rdField c < 16 := Nat.mod_lt _ (by decide)
theorem raField_lt : raField c < 16 := Nat.mod_lt _ (by decide)
theorem rbField_lt : rbField c < 16 := Nat.mod_lt _ (by decide)
theorem zField_lt : zField c < 4096 := Nat.mod_lt _ (by decide)

/-! ### Fields of a word under a mask -/

variable (d : BusWord)

@[simp] theorem opcField_and : opcField (c &&& d) = opcField c &&& opcField d := by
  rw [opcField, BitVec.toNat_and, Nat.and_div_two_pow]; rfl
@[simp] theorem rdField_and : rdField (c &&& d) = rdField c &&& rdField d := by
  rw [rdField, BitVec.toNat_and, Nat.and_div_two_pow]; exact Nat.and_mod_two_pow (n := 4)
@[simp] theorem raField_and : raField (c &&& d) = raField c &&& raField d := by
  rw [raField, BitVec.toNat_and, Nat.and_div_two_pow]; exact Nat.and_mod_two_pow (n := 4)
@[simp] theorem rbField_and : rbField (c &&& d) = rbField c &&& rbField d := by
  rw [rbField, BitVec.toNat_and, Nat.and_div_two_pow]; exact Nat.and_mod_two_pow (n := 4)
@[simp] theorem zField_and : zField (c &&& d) = zField c &&& zField d := by
  rw [zField, BitVec.toNat_and]; exact Nat.and_mod_two_pow

@[simp] theorem opcField_and_mask : opcField c &&& 255 = opcField c :=
  Nat.and_two_pow_sub_one_of_lt_two_pow (n := 8) (opcField_lt c)
@[simp] theorem rdField_and_mask : rdField c &&& 15 = rdField c :=
  Nat.and_two_pow_sub_one_of_lt_two_pow (n := 4) (rdField_lt c)
@[simp] theorem raField_and_mask : raField c &&& 15 = raField c :=
  Nat.and_two_pow_sub_one_of_lt_two_pow (n := 4) (raField_lt c)
@[simp] theorem rbField_and_mask : rbField c &&& 15 = rbField c :=
  Nat.and_two_pow_sub_one_of_lt_two_pow (n := 4) (rbField_lt c)
@[simp] theorem zField_and_mask : zField c &&& 4095 = zField c :=
  Nat.and_two_pow_sub_one_of_lt_two_pow (n := 12) (zField_lt c)

end

/-! ### Fields of a literal word, such as a row's match and mask

The proofs are rewrites, not `rfl`: `simp` would use an equation proved by `rfl` as a definitional one, and
comparing the fields of two literals by unfolding takes it very long. -/

section

variable (n : Nat)

@[simp] theorem opcField_ofNat : opcField (BitVec.ofNat 32 n) = n % 2 ^ 32 / 2 ^ 24 := by
  rw [opcField, BitVec.toNat_ofNat]
@[simp] theorem rdField_ofNat : rdField (BitVec.ofNat 32 n) = n % 2 ^ 32 / 2 ^ 20 % 16 := by
  rw [rdField, BitVec.toNat_ofNat]
@[simp] theorem raField_ofNat : raField (BitVec.ofNat 32 n) = n % 2 ^ 32 / 2 ^ 16 % 16 := by
  rw [raField, BitVec.toNat_ofNat]
@[simp] theorem rbField_ofNat : rbField (BitVec.ofNat 32 n) = n % 2 ^ 32 / 2 ^ 12 % 16 := by
  rw [rbField, BitVec.toNat_ofNat]
@[simp] theorem zField_ofNat : zField (BitVec.ofNat 32 n) = n % 2 ^ 32 % 2 ^ 12 := by
  rw [zField, BitVec.toNat_ofNat]

end

end Sys2Proof
end

section
/-! ## The decoder by the opcode table, said once (R73 to R76, R78) -/

namespace Sys2Proof

/-- The command that an opcode names, as a function of RD, RA and RB; none for a reserved opcode (R75, R76). -/
def commandOf : Nat → Option (Nat → Nat → Nat → Instr)
  | 0x01 => some fun rd _ _ => .ldi rd
  | 0x02 => some fun rd _ _ => .ldu rd
  | 0x03 => some fun rd ra _ => .mov rd ra
  | 0x04 => some fun _ ra rb => .cmp ra rb
  | 0x05 => some fun _ ra rb => .cmpm ra rb
  | 0x06 => some fun _ ra rb => .cmpu ra rb
  | 0x07 => some fun _ ra _ => .rdlimb ra
  | 0x08 => some fun _ ra _ => .rdinfo ra
  | 0x10 => some fun rd _ _ => .parse rd
  | 0x11 => some fun _ ra _ => .render ra
  | 0x20 => some fun rd ra rb => .add rd ra rb
  | 0x21 => some fun rd ra rb => .sub rd ra rb
  | 0x22 => some fun rd ra _ => .neg rd ra
  | 0x30 => some fun rd ra rb => .mul rd ra rb
  | _ => none

/-- The decoder's answer to a word whose opcode and fields name the command `i`: the bits that `i`'s row
requires to be 0 are checked first (R73), then the register indexes (R74). -/
def rowAnswer (nreg : Nat) (c : BusWord) (i : Instr) : Except Reject Instr :=
  if i.row.selects c then if i.wfFor nreg then .ok i else .error .registerIndex else .error .mustBeZero

/-- The checks of a format are the row's mask and the command's indexes. -/
theorem checked_eq_rowAnswer {nreg : Nat} {c : BusWord} {i : Instr} {mustBeZero used : List Nat}
    (hused : used = i.used) (h : i.row.selects c = true ↔ ∀ f ∈ mustBeZero, f = 0) :
    checked nreg mustBeZero used i = rowAnswer nreg c i := by
  have hany : mustBeZero.any (fun f => f != 0) = !i.row.selects c := by
    rw [Bool.eq_iff_iff]
    simp [← Bool.not_eq_true, h]
  subst hused
  unfold checked rowAnswer
  rw [hany]
  cases i.row.selects c <;> rfl

/-- A word selects a row when `(c & mask) = match` (R75). -/
theorem row_selects_iff (i : Instr) (c : BusWord) : i.row.selects c = true ↔ c &&& i.row.maskWord = i.row.matchWord :=
  beq_iff_eq

/-- A word whose opcode names a command gets the row's answer for that command with the word's own fields. -/
theorem decodeFor_eq_rowAnswer {nreg : Nat} {c : BusWord} {command : Nat → Nat → Nat → Instr}
    (h : commandOf (opcField c) = some command) :
    decodeFor nreg c = rowAnswer nreg c (command (rdField c) (raField c) (rbField c)) := by
  unfold commandOf at h
  split at h
  case h_15 => cases h
  all_goals
    next hopc =>
    cases h
    simp only [decodeFor, hopc, Nat.reduceEqDiff, ↓reduceIte]
    refine checked_eq_rowAnswer rfl ?_
    rw [row_selects_iff, word_ext_iff]
    simp [Instr.row, hopc]

/-- A word whose opcode names no command is rejected for its opcode (R76). -/
theorem decodeFor_reserved {c : BusWord} (h : commandOf (opcField c) = none) (nreg : Nat) :
    decodeFor nreg c = .error .reservedOpcode := by
  unfold commandOf at h
  split at h
  case h_15 => simp_all only [decodeFor, imp_false, if_false]
  all_goals cases h

theorem rowAnswer_eq_ok_iff {nreg : Nat} {c : BusWord} {i j : Instr} :
    rowAnswer nreg c i = .ok j ↔ i.row.selects c = true ∧ i.wfFor nreg = true ∧ i = j := by
  unfold rowAnswer
  split
  · split <;> simp [*]
  · simp [*]

/-- The words that the decoder accepts: the opcode and the fields name the command, the word selects the
command's row, and the register indexes are below `nreg` (R73 to R75). -/
theorem decodeFor_eq_ok_iff {nreg : Nat} {c : BusWord} {i : Instr} :
    decodeFor nreg c = .ok i ↔
      (∃ command, commandOf (opcField c) = some command ∧ command (rdField c) (raField c) (rbField c) = i) ∧
        i.row.selects c = true ∧ i.wfFor nreg = true := by
  cases h : commandOf (opcField c) with
  | none => simp [decodeFor_reserved h]
  | some command =>
    rw [decodeFor_eq_rowAnswer h, rowAnswer_eq_ok_iff]
    constructor
    · rintro ⟨hsel, hwf, rfl⟩
      exact ⟨⟨command, rfl, rfl⟩, hsel, hwf⟩
    · rintro ⟨⟨_, hcommand, rfl⟩, hsel, hwf⟩
      cases hcommand
      exact ⟨hsel, hwf, rfl⟩

/-- A word selects its command's row exactly when it is the command's word (R75, R82). -/
theorem row_selects_iff_encode_eq {c : BusWord} {command : Nat → Nat → Nat → Instr}
    (h : commandOf (opcField c) = some command) :
    (command (rdField c) (raField c) (rbField c)).row.selects c = true ↔
      encode (command (rdField c) (raField c) (rbField c)) = c := by
  rw [row_selects_iff, word_ext_iff]
  unfold commandOf at h
  split at h
  case h_15 => cases h
  all_goals
    next hopc =>
    cases h
    simp [Instr.row, encode, encodeFields_eq_iff, rdField_lt, raField_lt, rbField_lt, hopc]

/-- A field has four bits, so no word of a 16-register block has an index at or above NREG (R74). -/
theorem wfFor_sixteen_of_commandOf {c : BusWord} {command : Nat → Nat → Nat → Instr}
    (h : commandOf (opcField c) = some command) :
    (command (rdField c) (raField c) (rbField c)).wfFor 16 = true := by
  unfold commandOf at h
  split at h
  case h_15 => cases h
  all_goals
    cases h
    simp [Instr.wfFor, Instr.used, rdField_lt, raField_lt, rbField_lt]

theorem wfFor_eq_false_iff (nreg : Nat) (i : Instr) : i.wfFor nreg = false ↔ ∃ f ∈ i.used, nreg ≤ f := by
  simp [Instr.wfFor, indexesLegal]

/-- A word that some block runs is rejected for its index by a block that has too few registers for it (R74). -/
theorem decodeFor_registerIndex {nreg nreg' : Nat} {c : BusWord} {i : Instr} (hok : decodeFor nreg' c = .ok i)
    (hwf : i.wfFor nreg = false) : decodeFor nreg c = .error .registerIndex := by
  obtain ⟨⟨command, hcommand, rfl⟩, hsel, -⟩ := decodeFor_eq_ok_iff.1 hok
  rw [decodeFor_eq_rowAnswer hcommand, rowAnswer, if_pos hsel, if_neg (Bool.eq_false_iff.1 hwf)]

theorem commandOf_eq_none_of_reserved {opc : Nat}
    (h : opc = 0x00 ∨ (0x09 ≤ opc ∧ opc ≤ 0x0F) ∨ (0x12 ≤ opc ∧ opc ≤ 0x1F) ∨ (0x23 ≤ opc ∧ opc ≤ 0x2F) ∨
      (0x31 ≤ opc ∧ opc ≤ 0xFF)) : commandOf opc = none := by
  unfold commandOf
  split
  case h_15 => rfl
  all_goals omega

/-! ### The rows of the table (R75) -/

theorem row_mem_opcodeTable (i : Instr) : i.row ∈ opcodeTable := by
  cases i <;> simp [Instr.row, opcodeTable]

theorem opcodeTable_nodup : opcodeTable.Nodup := by decide

theorem filter_opcodeTable_eq_row (i : Instr) : opcodeTable.filter (fun r => r == i.row) = [i.row] := by
  rw [List.filter_beq, List.count_eq_one_of_mem opcodeTable_nodup (row_mem_opcodeTable i), List.replicate_one]

/-- The opcode of a row names a command, and the row is that command's. -/
theorem exists_commandOf_row {r : Row} (hr : r ∈ opcodeTable) :
    ∃ command, commandOf (opcField r.matchWord) = some command ∧ ∀ rd ra rb, (command rd ra rb).row = r := by
  fin_cases hr <;> exact ⟨_, rfl, fun _ _ _ => rfl⟩

theorem opcField_maskWord : ∀ r ∈ opcodeTable, opcField r.maskWord = 255 := by decide

theorem opcField_eq_of_selects {r : Row} {c : BusWord} (hr : r ∈ opcodeTable) (hsel : r.selects c = true) :
    opcField c = opcField r.matchWord := by
  rw [← eq_of_beq hsel, opcField_and, opcField_maskWord r hr, opcField_and_mask]

theorem opcField_eq_of_and_opcode {c m : BusWord} (h : c &&& 0xFF000000 = m) : opcField c = opcField m := by
  rw [← h]
  simp

/-- A word with a row's opcode that does not select the row is rejected for a bit that must be 0 (R73). -/
theorem decodeFor_mustBeZero {r : Row} {c : BusWord} (hr : r ∈ opcodeTable) (hopc : opcField c = opcField r.matchWord)
    (hsel : c &&& r.maskWord ≠ r.matchWord) (nreg : Nat) : decodeFor nreg c = .error .mustBeZero := by
  obtain ⟨command, hcommand, hrow⟩ := exists_commandOf_row hr
  rw [decodeFor_eq_rowAnswer (hopc ▸ hcommand), rowAnswer, if_neg (by rwa [row_selects_iff, hrow])]

/-- The only row that a word of the command `i` can select is `i`'s. -/
theorem selects_iff_eq_row {nreg : Nat} {c : BusWord} {i : Instr} (hok : decodeFor nreg c = .ok i) {r : Row}
    (hr : r ∈ opcodeTable) : r.selects c = true ↔ r = i.row := by
  obtain ⟨⟨command, hcommand, rfl⟩, hsel, -⟩ := decodeFor_eq_ok_iff.1 hok
  constructor
  · intro hr'
    obtain ⟨command', hcommand', hrow⟩ := exists_commandOf_row hr
    rw [← opcField_eq_of_selects hr hr', hcommand] at hcommand'
    cases hcommand'
    exact (hrow _ _ _).symm
  · rintro rfl
    exact hsel

end Sys2Proof
end

section
/-! ## Words and commands correspond (R71 to R75, R82) -/

namespace Sys2Proof

/-- Settles O1: each format reads back the fields that the encoder wrote. -/
theorem decodeEncodeRoundTrip : Obligations.DecodeEncodeRoundTrip :=
  fun _ _ hnreg hwf => decodeFor_encode hnreg hwf

/-- Settles O2: an accepted word selects its command's row, and so is the command's word. -/
theorem encodeDecodeRoundTrip : Obligations.EncodeDecodeRoundTrip := by
  intro nreg c i hok
  obtain ⟨⟨command, hcommand, rfl⟩, hsel, hwf⟩ := decodeFor_eq_ok_iff.1 hok
  exact ⟨(row_selects_iff_encode_eq hcommand).1 hsel, hwf⟩

/-- Settles O3: a selected row names the word's command by its opcode, and no other row has that opcode. -/
theorem decodeAcceptsExactlyTheTableRows : Obligations.DecodeAcceptsExactlyTheTableRows := by
  refine ⟨fun c => ⟨?_, ?_⟩, fun c i hok => ?_⟩
  · rintro ⟨i, hok⟩
    exact ⟨i.row, row_mem_opcodeTable i, (decodeFor_eq_ok_iff.1 hok).2.1⟩
  · rintro ⟨r, hr, hsel⟩
    obtain ⟨command, hcommand, hrow⟩ := exists_commandOf_row hr
    rw [← opcField_eq_of_selects hr hsel] at hcommand
    exact ⟨_, decodeFor_eq_ok_iff.2 ⟨⟨command, hcommand, rfl⟩, by rwa [hrow], wfFor_sixteen_of_commandOf hcommand⟩⟩
  · rw [← filter_opcodeTable_eq_row i]
    refine List.filter_congr fun r hr => ?_
    rw [Bool.eq_iff_iff, selects_iff_eq_row hok hr, beq_iff_eq]

/-- Settles O4: the sum of the shifted fields is their concatenation, and the examples are evaluated. -/
theorem commandWordIsItsFieldsInOrder : Obligations.CommandWordIsItsFieldsInOrder :=
  ⟨encodeFields_eq_append, rfl, rfl, rfl, rfl, rfl, rfl, rfl, rfl, rfl, rfl⟩

end Sys2Proof
end

section
/-! ## The engine's turn on a legal and on an illegal word (R73, R74, R76, R78, R214, R243) -/

namespace Sys2Proof.Machine

/-- A pending word that is no command raises ILLEGAL when the engine moves next (R73, R76, R212). -/
theorem step_rejected {s : State} {p : Pending} {rest : List Input} {e : Reject} (hpend : s.pend = some p)
    (hinputs : s.inputs = .engine :: rest) (hdecode : decodeFor s.params.nreg p.cmd = .error e) :
    step s = .next { s with inputs := rest, err := .illegal, pend := none } :=
  (step_input s _ rest hinputs).trans (engineTurn_rejected _ p e hpend hdecode)

theorem step_command {s : State} {p : Pending} {rest : List Input} {i : Instr} (hpend : s.pend = some p)
    (hinputs : s.inputs = .engine :: rest) (hdecode : decodeFor s.params.nreg p.cmd = .ok i) :
    step s = exec i { s with inputs := rest } :=
  (step_input s _ rest hinputs).trans (engineTurn_command _ p i hpend hdecode)

/-- A command with an index at or above NREG raises ILLEGAL, and nothing else changes (R14, R74). -/
theorem exec_illegal {i : Instr} {s : State} (h : i.wfFor s.params.nreg = false) :
    exec i s = .next { s with err := .illegal, pend := none } := by
  rw [exec_eq, errorOf, if_neg (Bool.eq_false_iff.1 h)]
  rfl

/-- Settles O5: no command has a reserved opcode. -/
theorem reservedOpcodeRaisesIllegal : Obligations.ReservedOpcodeRaisesIllegal :=
  fun _ _ _ _ hpend hinputs hopc =>
    step_rejected hpend hinputs (decodeFor_reserved (commandOf_eq_none_of_reserved hopc) _)

/-- Settles O6: a word with a row's opcode that does not select the row is no command. -/
theorem nonzeroMustBeZeroBitRaisesIllegal : Obligations.NonzeroMustBeZeroBitRaisesIllegal :=
  fun _ _ _ _ _ hpend hinputs hr hopc hsel =>
    step_rejected hpend hinputs (decodeFor_mustBeZero hr (opcField_eq_of_and_opcode hopc) hsel _)

/-- Settles O7: the index check is the last one of the decoder and the first one of a command. -/
theorem registerIndexAtOrAboveNregRaisesIllegal : Obligations.RegisterIndexAtOrAboveNregRaisesIllegal := by
  have hreject : ∀ (nreg : Nat) (c : BusWord) (i : Instr), decodeFor 16 c = .ok i → (∃ f ∈ i.used, nreg ≤ f) →
      decodeFor nreg c = .error .registerIndex :=
    fun nreg c i hok hused => decodeFor_registerIndex hok ((wfFor_eq_false_iff nreg i).2 hused)
  refine ⟨hreject, fun s p i hpend hok hused => ?_, fun i s hused => ?_, fun c => ?_⟩
  · exact engineTurn_rejected s p _ hpend (hreject _ _ i hok hused)
  · exact exec_illegal ((wfFor_eq_false_iff _ i).2 hused)
  · cases hcommand : commandOf (opcField c) with
    | none => simp [decode, decodeFor_reserved hcommand]
    | some command =>
      rw [decode, decodeFor_eq_rowAnswer hcommand, rowAnswer, if_pos (wfFor_sixteen_of_commandOf hcommand)]
      split <;> simp

theorem decodeTableWord_eq_some {nbits w : Nat} {i : Instr} (h : decodeTableWord nbits w = some i) :
    decode (tableWord nbits w) = .ok i := by
  unfold decodeTableWord at h
  split at h
  · next hok => rw [hok, Option.some.inj h]
  · cases h

theorem tableWord_full (w : Nat) : tableWord 32 w = BitVec.ofNat 32 w :=
  BitVec.eq_of_toNat_eq (by simp [tableWord])

/-- Settles O8: the input that comes next, or the lack of one, gives the engine its turn on the word. -/
theorem stepRunsTheDecodedCommand : Obligations.StepRunsTheDecodedCommand := by
  refine ⟨fun s c A i rest hpend hdecode hinputs => step_command hpend hinputs hdecode,
    fun s c A i hpend hdecode hinputs => ?_, fun s w i hnreg htable => ?_⟩
  · rw [step_no_input s hinputs, engineTurn_command s _ i hpend hdecode]
  · have hdecode : decodeFor s.params.nreg (BitVec.ofNat 32 w) = .ok i := by
      rw [hnreg, ← tableWord_full]
      exact decodeTableWord_eq_some htable
    rw [State.withFetchWord, tableWord_full]
    exact step_command (State.placeCommand_pend s _) (State.placeCommand_inputs s _) hdecode

/-- The frame of a command's effect: it reaches the registers, `RES` and `TBUF` (R34, R40). -/
theorem Effect.frame {i : Instr} {s u : State} (h : Effect i s u) :
    u = { s with regs := u.regs, res := u.res, tbuf := u.tbuf } := by
  cases h with
  | register | res => rfl
  | text => rw [State.memWrite_eq]; rfl

theorem engineTurn_completes (s : State) : ∃ t, engineTurn s = .next t := by
  cases hpend : s.pend with
  | none => exact ⟨s, engineTurn_idle s hpend⟩
  | some p =>
    cases hdecode : decodeFor s.params.nreg p.cmd with
    | error e => exact ⟨_, engineTurn_rejected s p e hpend hdecode⟩
    | ok i => exact ⟨_, (engineTurn_command s p i hpend hdecode).trans (exec_eq i s)⟩

/-- Settles O9: the engine's turn on a pending word reports an error or an effect within the frame. -/
theorem everyPendingWordCompletes : Obligations.EveryPendingWordCompletes := by
  intro s p hpend
  obtain ⟨t, hturn⟩ := engineTurn_completes s
  refine ⟨t, hturn, ?_⟩
  obtain ⟨hidle, -⟩ | ⟨code, -, rfl⟩ | ⟨i, u, -, heffect, rfl⟩ := engineTurn_cases hturn
  · simp [hpend] at hidle
  · rfl
  · rw [heffect.frame]
    rfl

end Sys2Proof.Machine
end

section
/-! ## What the rules of a command share: its row, ILLEGAL, and a completion that raises no error (R71 to R75, R212) -/

namespace Sys2Proof.Machine

/-- The Operands and Encoding parts of a command rule, from the row that its opcode names (R73 to R75). -/
theorem rowDecodes_of_commandOf {matchWord maskWord : BusWord} {command : Nat → Nat → Nat → Instr}
    (hcommand : commandOf (opcField matchWord) = some command)
    (hrow : ∀ rd ra rb, (command rd ra rb).row = ⟨matchWord, maskWord⟩) : rowDecodes matchWord maskWord command := by
  have hr : (⟨matchWord, maskWord⟩ : Row) ∈ opcodeTable := hrow 0 0 0 ▸ row_mem_opcodeTable _
  refine fun nreg c => ⟨fun hsel => ?_, fun hopc hsel =>
    decodeFor_mustBeZero hr (opcField_eq_of_and_opcode hopc) hsel nreg⟩
  have hopc : opcField c = opcField matchWord := opcField_eq_of_selects hr (beq_iff_eq.2 hsel)
  rw [decodeFor_eq_rowAnswer (hopc ▸ hcommand), rowAnswer, if_pos (by rwa [row_selects_iff, hrow])]

/-- The ILLEGAL entry of a command rule's Errors part (R14, R74). -/
theorem exec_illegalOutside (i : Instr) (s : State) : illegalOutside i s := exec_illegal

/-- A command whose list of errors has NONE alone has nothing to check (R212). -/
theorem checkOf_of_no_errors {i : Instr} (s : State) (h : errorsOf i = [.none]) : checkOf s i = .none := by
  cases i with
  | ldi | ldu | mov | neg | cmp | cmpm | cmpu | rdlimb | rdinfo => rfl
  | parse | render | add | sub | mul => simp [errorsOf] at h

section

variable {i : Instr} {s : State} (hwf : i.wfFor s.params.nreg = true) (hnone : errorsOf i = [.none])
include hwf hnone

/-- A command that lists no error of its own completes with its effect (R212, R214). -/
theorem exec_of_no_errors : exec i s = .next ((effectOf s i).finish .none) := by
  rw [exec_eq, errorOf, if_pos hwf, checkOf_of_no_errors s hnone]
  rfl

theorem exec_register_of_no_errors {rd : Nat} (dest : destOf i = some rd) :
    exec i s = .next { s with regs := s.regs.set rd (resultOf s i), err := .none, pend := none } := by
  rw [exec_of_no_errors hwf hnone, effectOf_of_dest dest]
  rfl

theorem exec_observation_of_no_errors (dest : destOf i = none) :
    exec i s = .next { s with res := observationOf s i, err := .none, pend := none } := by
  have hrender : ∀ ra, i ≠ .render ra := by
    rintro ra rfl
    cases hnone
  rw [exec_of_no_errors hwf hnone, effectOf_of_no_dest dest, writtenText_of_not_render hrender]
  rfl

end

theorem wfFor_iff (nreg : Nat) (i : Instr) : i.wfFor nreg = true ↔ ∀ f ∈ i.used, f < nreg := by
  simp [Instr.wfFor, indexesLegal]

theorem wfFor_of_used_one {nreg : Nat} {i : Instr} {f : Nat} (hused : i.used = [f]) (hf : f < nreg) :
    i.wfFor nreg = true := by
  simpa [wfFor_iff, hused] using hf

theorem wfFor_of_used_two {nreg : Nat} {i : Instr} {f g : Nat} (hused : i.used = [f, g]) (hf : f < nreg) (hg : g < nreg) :
    i.wfFor nreg = true := by
  simpa [wfFor_iff, hused] using ⟨hf, hg⟩

end Sys2Proof.Machine
end

section
/-! ## LDI, LDU and MOV (R103 to R105) -/

namespace Sys2Proof.Machine

/-- The signed reading of an argument is the two's-complement one (R11). -/
theorem argSigned_eq_toInt (A : Limb) : argSigned A = A.toInt := by
  rw [argSigned, toSigned64, BitVec.toInt_eq_toNat_cond]
  split <;> split <;> omega

/-- Settles O19: the result is `enc` of the argument's signed value, which fits one limb. -/
theorem ldiLoadsTheSignedArgument : Obligations.LdiLoadsTheSignedArgument := by
  refine ⟨rowDecodes_of_commandOf rfl fun _ _ _ => rfl, fun rd s c A hpend =>
    ⟨exec_illegalOutside _ s, fun hrd => ⟨?_, ?_⟩⟩⟩
  · rw [exec_register_of_no_errors (wfFor_of_used_one rfl hrd) rfl rfl, resultOf_ldi, s.latched_pending _ hpend,
      argSigned_eq_toInt]
  · exact enc_of_natAbs_lt (argSigned_eq_toInt A ▸ natAbs_argSigned_lt A)

/-- Settles O20: the result is `enc` of the argument's unsigned value, the argument itself as one limb. -/
theorem lduLoadsTheUnsignedArgument : Obligations.LduLoadsTheUnsignedArgument := by
  refine ⟨rowDecodes_of_commandOf rfl fun _ _ _ => rfl, fun rd s c A hpend =>
    ⟨exec_illegalOutside _ s, fun hrd => ?_⟩⟩
  have henc : (⟨false, [A]⟩ : BigReg) = enc A.toNat := by
    rw [enc_of_natAbs_lt (v := (A.toNat : Int)) A.isLt, decide_eq_false (by omega), Int.natAbs_natCast,
      BitVec.ofNat_toNat, BitVec.setWidth_eq]
  refine ⟨?_, henc⟩
  rw [exec_register_of_no_errors (wfFor_of_used_one rfl hrd) rfl rfl, resultOf_ldu, s.latched_pending _ hpend, henc]
  rfl

/-- Settles O21: the destination reads the source's value, and so does the source, itself or another register. -/
theorem movCopiesTheRegister : Obligations.MovCopiesTheRegister := by
  refine ⟨rowDecodes_of_commandOf rfl fun _ _ _ => rfl, fun rd ra s =>
    ⟨exec_illegalOutside _ s, fun hrd hra hlen => ?_⟩⟩
  set t : State := { s with regs := s.regs.set rd (s.reg ra), err := .none, pend := none } with ht
  have hexec : exec (.mov rd ra) s = .next t := exec_register_of_no_errors (wfFor_of_used_two rfl hrd hra) rfl rfl
  have hdest : t.reg rd = s.reg ra := s.reg_writeReg_same rd (s.reg ra) (hlen ▸ hrd)
  have hsource : t.reg ra = s.reg ra := by
    obtain rfl | hne := eq_or_ne ra rd
    · exact hdest
    · exact s.reg_writeReg_other rd ra _ hne
  refine ⟨t, hexec, ht, hdest, hsource, fun hne v => ⟨?_, ?_⟩⟩
  · rw [t.reg_writeReg_other ra rd v hne, hdest]
  · rw [t.reg_writeReg_other rd ra v hne.symm, hsource]

end Sys2Proof.Machine
end

section
/-! ## CMP, CMPM and CMPU, and the ordering tests (R100 to R102, R106 to R108, R111) -/

namespace Sys2Proof.Machine

/-- `Compare(unsigned)` orders the first value against the second magnitude under the first sign (R101). -/
theorem compareReg_unsigned_compares {a b : BigReg} (ha : canonicalMag a.mag = true) (hb : canonicalMag b.mag = true) :
    (compareReg a b false).Compares a.val (BigReg.val ⟨a.neg, b.mag⟩) := by
  have hc := compareMag_compares ha hb
  simp only [compareReg, Bool.false_and, Bool.false_eq_true, ↓reduceIte, BigReg.val]
  cases a.neg with
  | false => exact (Nat.strictMono_cast (α := Int)).compares.2 hc
  | true => exact (Nat.strictMono_cast (α := Int)).neg.compares.2 (Ordering.compares_swap.2 hc)

theorem BigReg.val_nonneg {r : BigReg} (h : r.neg = false) : 0 ≤ r.val := by simp [BigReg.val, h]

theorem BigReg.val_neg {r : BigReg} (hr : r.canonical = true) (h : r.neg = true) : r.val < 0 := by
  have hne := ((BigReg.canonical_iff r).1 hr).2 h
  rw [BigReg.val, if_pos h]
  omega

/-- `Compare(signed)` orders the values of canonical registers (R101). -/
theorem compareReg_signed_compares {a b : BigReg} (ha : a.canonical = true) (hb : b.canonical = true) :
    (compareReg a b true).Compares a.val b.val := by
  by_cases hsign : a.neg = b.neg
  · have hsame : compareReg a b true = compareReg a b false := by simp [compareReg, hsign]
    rw [hsame]
    have hc := compareReg_unsigned_compares ((BigReg.canonical_iff a).1 ha).1 ((BigReg.canonical_iff b).1 hb).1
    rwa [hsign] at hc
  · cases hna : a.neg with
    | false =>
      have hnb : b.neg = true := by simpa [hna] using hsign
      have hgt : compareReg a b true = .gt := by simp [compareReg, hna, hnb]
      rw [hgt]
      exact (BigReg.val_neg hb hnb).trans_le (BigReg.val_nonneg hna)
    | true =>
      have hnb : b.neg = false := by simpa [hna] using hsign
      have hlt : compareReg a b true = .lt := by simp [compareReg, hna, hnb]
      rw [hlt]
      exact (BigReg.val_neg ha hna).trans_le (BigReg.val_nonneg hnb)

/-- The code of a comparison result that orders two numbers (R102). -/
theorem compareCode_of_compares {α : Type} [LinearOrder α] {o : Ordering} {a b : α} (h : o.Compares a b) :
    compareCode o = if a < b then 0xFFFFFFFFFFFFFFFF else if a = b then 0 else 1 := by
  cases o with
  | lt => exact (if_pos h).symm
  | eq =>
    have heq : a = b := h
    rw [if_neg heq.not_lt, if_pos heq, compareCode]
  | gt =>
    have hgt : b < a := h
    rw [if_neg hgt.not_gt, if_neg hgt.ne', compareCode]

/-- Settles O22: `Compare(signed)` orders the values, and RES has its code. -/
theorem cmpOrdersSignedValues : Obligations.CmpOrdersSignedValues :=
  ⟨rowDecodes_of_commandOf rfl fun _ _ _ => rfl, fun _ _ s => ⟨exec_illegalOutside _ s, fun hra hrb =>
    ⟨exec_observation_of_no_errors (wfFor_of_used_two rfl hra hrb) rfl rfl, fun ha hb =>
      compareCode_of_compares (compareReg_signed_compares ha hb)⟩⟩⟩

/-- Settles O23: `CompareMag` orders the magnitudes, and RES has its code. -/
theorem cmpmOrdersMagnitudes : Obligations.CmpmOrdersMagnitudes :=
  ⟨rowDecodes_of_commandOf rfl fun _ _ _ => rfl, fun _ _ s => ⟨exec_illegalOutside _ s, fun hra hrb =>
    ⟨exec_observation_of_no_errors (wfFor_of_used_two rfl hra hrb) rfl rfl, fun ha hb =>
      compareCode_of_compares (compareMag_compares ha hb)⟩⟩⟩

/-- Settles O24: `Compare(unsigned)` orders the values under the first sign, and RES has its code. -/
theorem cmpuOrdersWithTheFirstSign : Obligations.CmpuOrdersWithTheFirstSign :=
  ⟨rowDecodes_of_commandOf rfl fun _ _ _ => rfl, fun _ _ s => ⟨exec_illegalOutside _ s, fun hra hrb =>
    ⟨exec_observation_of_no_errors (wfFor_of_used_two rfl hra hrb) rfl rfl, fun ha hb =>
      compareCode_of_compares (compareReg_unsigned_compares ((BigReg.canonical_iff _).1 ha).1
        ((BigReg.canonical_iff _).1 hb).1)⟩⟩⟩

/-- Each test of `RES` decides its relation between the two numbers that were compared (R111). -/
theorem Relation.test_compareCode {o : Ordering} {a b : Int} (h : o.Compares a b) (rel : Relation) :
    rel.test (compareCode o) = rel.holds a b := by
  cases o with
  | lt =>
    have hlt : a < b := h
    cases rel <;> simp [Relation.test, Relation.holds, compareCode, hlt, hlt.le, hlt.ne, hlt.not_gt]
  | eq =>
    have heq : a = b := h
    cases rel <;> simp [Relation.test, Relation.holds, compareCode, heq]
  | gt =>
    have hgt : b < a := h
    cases rel <;> simp [Relation.test, Relation.holds, compareCode, hgt, hgt.le, hgt.ne', hgt.not_gt]

/-- Settles O25: the tests read the code of `Compare(signed)`, and SUB's difference is `enc` of the values' difference. -/
theorem orderingTestsAfterCmp : Obligations.OrderingTestsAfterCmp := by
  intro ra rb s hra hrb ha hb
  refine ⟨⟨_, exec_observation_of_no_errors (wfFor_of_used_two rfl hra hrb) rfl rfl,
    Relation.test_compareCode (compareReg_signed_compares ha hb)⟩, ?_⟩
  rw [addCore_eq_enc ha hb, enc, decide_eq_decide, OpSign.apply]
  omega

end Sys2Proof.Machine
end

section
/-! ## RDLIMB and RDINFO (R33, R58, R109, R110) -/

namespace Sys2Proof.Machine

/-- Limb `k` of a list, 0 at or above its length, is bits `64k+63:64k` of the magnitude (R15, R58). -/
theorem toNat_getD_getElem? (m : List Limb) : ∀ k : Nat,
    ((m[k]?).getD 0).toNat = magValue m / 2 ^ (64 * k) % 2 ^ 64 := by
  induction m with
  | nil => intro k; simp
  | cons l m ih =>
    intro k
    have hl := l.isLt
    cases k with
    | zero =>
      simp only [List.getElem?_cons_zero, Option.getD_some, magValue_cons, mul_zero, pow_zero, Nat.div_one]
      omega
    | succ k =>
      have hdrop : (l.toNat + 2 ^ 64 * magValue m) / 2 ^ 64 = magValue m := by omega
      rw [List.getElem?_cons_succ, ih k, magValue_cons, two_pow_limbs_succ, ← Nat.div_div_eq_div_mul, hdrop]

/-- Settles O26: the limb that the index selects, or 0, is that digit of the magnitude in base `2^64`. -/
theorem rdlimbReadsOneLimb : Obligations.RdlimbReadsOneLimb := by
  refine ⟨rowDecodes_of_commandOf rfl fun _ _ _ => rfl, fun ra s c A hpend =>
    ⟨exec_illegalOutside _ s, fun hra => ⟨((s.reg ra).mag[A.toNat]?).getD 0, ?_, fun hlt => ?_, fun hge => ?_,
      toNat_getD_getElem? _ _⟩⟩⟩
  · rw [exec_observation_of_no_errors (wfFor_of_used_one rfl hra) rfl rfl, observationOf, s.latched_pending _ hpend]
    rfl
  · rw [List.getElem?_eq_getElem hlt, Option.getD_some]
  · rw [List.getElem?_eq_none hge, Option.getD_none]

section

variable (r : BigReg)

theorem infoWord_sign : (infoWord r).getLsbD 63 = r.neg :=
  BitVec.getLsbD_append.trans (BitVec.getLsbD_append.trans (by simp))

theorem infoWord_reserved : (infoWord r).extractLsb' 32 31 = 0 :=
  (BitVec.extractLsb'_append_eq_of_le (by decide)).trans BitVec.extractLsb'_append_eq_right

theorem infoWord_length (h : r.mag.length < 2 ^ 32) : ((infoWord r).extractLsb' 0 32).toNat = r.mag.length := by
  have hfield : (infoWord r).extractLsb' 0 32 = BitVec.ofNat 32 r.mag.length := BitVec.extractLsb'_append_eq_right
  rw [hfield, BitVec.toNat_ofNat, Nat.mod_eq_of_lt h]

end

/-- Zero reads as positive with one limb (R110). -/
theorem infoWord_of_magValue_eq_zero {r : BigReg} (hr : r.canonical = true) (hzero : magValue r.mag = 0) :
    infoWord r = 1 := by
  have hval : r.val = 0 := Int.natAbs_eq_zero.1 (r.natAbs_val.trans hzero)
  rw [BigReg.eq_enc_val hr, hval]
  decide

theorem length_pos_of_canonicalMag {m : List Limb} (h : canonicalMag m = true) : 1 ≤ m.length :=
  (canonicalMag_iff_length m).1 h ▸ limbCount_pos _

/-- Settles O27: the fields of the word are the sign, zeros and the length, which fits its 32 bits. -/
theorem rdinfoReadsSignAndLength : Obligations.RdinfoReadsSignAndLength := by
  refine ⟨rowDecodes_of_commandOf rfl fun _ _ _ => rfl, fun ra s => ⟨exec_illegalOutside _ s, fun hra =>
    ⟨infoWord (s.reg ra), exec_observation_of_no_errors (wfFor_of_used_one rfl hra) rfl rfl, infoWord_sign _,
      infoWord_reserved _, fun hparams hlegal => ?_⟩⟩⟩
  obtain ⟨-, ⟨-, hlmax⟩, -⟩ := (params_legal_iff _).1 hparams
  obtain ⟨hcanon, hlen⟩ := (BigReg.legal_iff _ _).1 hlegal
  have hpos := length_pos_of_canonicalMag ((BigReg.canonical_iff _).1 hcanon).1
  exact ⟨infoWord_length _ (by omega), hpos, hlen, infoWord_of_magValue_eq_zero hcanon⟩

end Sys2Proof.Machine
end

section
/-! ## Digit strings and the numbers they stand for (R131 to R133, R137, R139) -/

namespace Sys2Proof.Machine

/-! ### The value of a digit string (R131) -/

/-- The value of a digit string is Mathlib's `ofDigits` of the digits, least significant first. -/
theorem decimalValue_eq_ofDigits (ds : List Nat) : decimalValue ds = Nat.ofDigits 10 ds.reverse := by
  simp [decimalValue, Nat.ofDigits_eq_foldr, add_comm]

@[simp] theorem decimalValue_nil : decimalValue [] = 0 := rfl

@[simp] theorem decimalValue_singleton (d : Nat) : decimalValue [d] = d := by simp [decimalValue]

theorem decimalValue_append (xs ys : List Nat) :
    decimalValue (xs ++ ys) = decimalValue xs * 10 ^ ys.length + decimalValue ys := by
  simp only [decimalValue_eq_ofDigits, List.reverse_append, Nat.ofDigits_append, List.length_reverse]
  ring

theorem decimalValue_cons (d : Nat) (ds : List Nat) :
    decimalValue (d :: ds) = d * 10 ^ ds.length + decimalValue ds := by
  simpa using decimalValue_append [d] ds

theorem decimalValue_lt {ds : List Nat} (h : ∀ d ∈ ds, d < 10) : decimalValue ds < 10 ^ ds.length := by
  have hlt := Nat.ofDigits_lt_base_pow_length (l := ds.reverse) (by norm_num : 1 < 10) (by simpa using h)
  rwa [List.length_reverse, ← decimalValue_eq_ofDigits] at hlt

/-! ### The digits of a number, and none for 0 (R132) -/

/-- The digits of `n`, most significant first, without leading zeros: the empty string for 0. -/
def digitString (n : Nat) : List Nat := (Nat.digits 10 n).reverse

@[simp] theorem digitString_zero : digitString 0 = [] := by simp [digitString]

@[simp] theorem digitString_eq_nil_iff (n : Nat) : digitString n = [] ↔ n = 0 := by
  simp [digitString, Nat.digits_eq_nil_iff_eq_zero]

theorem digitString_lt_ten (n : Nat) : ∀ d ∈ digitString n, d < 10 := fun d hd =>
  Nat.digits_lt_base (by norm_num) (List.mem_reverse.1 hd)

@[simp] theorem decimalValue_digitString (n : Nat) : decimalValue (digitString n) = n := by
  rw [decimalValue_eq_ofDigits, digitString, List.reverse_reverse, Nat.ofDigits_digits]

/-- A digit string with a first digit other than 0 is the digit string of its value. -/
theorem digitString_decimalValue_cons {d : Nat} {ds : List Nat} (h : ∀ e ∈ d :: ds, e < 10) (hd : d ≠ 0) :
    digitString (decimalValue (d :: ds)) = d :: ds := by
  have hdigits : Nat.digits 10 (Nat.ofDigits 10 (d :: ds).reverse) = (d :: ds).reverse :=
    Nat.digits_ofDigits 10 (by norm_num) _ (fun e he => h e (List.mem_reverse.1 he)) (fun _ => by simpa using hd)
  rw [digitString, decimalValue_eq_ofDigits, hdigits, List.reverse_reverse]

/-- Without its leading zeros a digit string is the digit string of its value (R132, R133). -/
theorem dropZeros_eq_digitString {ds : List Nat} (h : ∀ d ∈ ds, d < 10) :
    dropZeros ds = digitString (decimalValue ds) := by
  induction ds with
  | nil => simp [dropZeros]
  | cons d ds ih =>
    obtain rfl | hd := eq_or_ne d 0
    · rw [decimalValue_cons, zero_mul, zero_add, ← ih fun e he => h e (List.mem_cons_of_mem _ he)]
      rfl
    · rw [digitString_decimalValue_cons h hd]
      simp [dropZeros, hd]

theorem head?_digitString (n : Nat) : (digitString n).head? ≠ some 0 := by
  intro hhead
  rw [digitString, List.head?_reverse] at hhead
  have hne : Nat.digits 10 n ≠ [] := by rintro hnil; simp [hnil] at hhead
  have hn : n ≠ 0 := Nat.digits_ne_nil_iff_ne_zero.1 hne
  rw [List.getLast?_eq_getLast_of_ne_nil hne, Option.some_inj] at hhead
  exact Nat.getLast_digit_ne_zero 10 hn hhead

/-! ### The decimal digits of a number, `0` for 0 (R137) -/

theorem decimalDigitsFrom_eq (bound : Nat) : ∀ (n : Nat) (acc : List Nat), n ≠ 0 → n < 10 ^ bound →
    decimalDigitsFrom bound n acc = digitString n ++ acc := by
  induction bound with
  | zero => intro n acc hpos hn; omega
  | succ bound ih =>
    intro n acc hpos hn
    rw [decimalDigitsFrom]
    split
    · next hten => simp [digitString, Nat.digits_of_lt 10 n hpos hten]
    · next hten =>
      rw [ih _ _ (by omega) (by rw [pow_succ] at hn; omega), digitString, digitString,
        Nat.digits_def' (by norm_num) (by omega : 0 < n)]
      simp

@[simp] theorem decimalDigits_zero : decimalDigits 0 = [0] := rfl

theorem decimalDigits_of_ne_zero {n : Nat} (h : n ≠ 0) : decimalDigits n = digitString n := by
  have hbound : n < 10 ^ (n.log2 + 1) := Nat.lt_log2_self.trans_le (Nat.pow_le_pow_left (by norm_num) _)
  rw [decimalDigits, decimalDigitsFrom_eq _ n [] h hbound, List.append_nil]

theorem decimalDigits_ne_nil (n : Nat) : decimalDigits n ≠ [] := by
  obtain rfl | h := eq_or_ne n 0
  · simp
  · simpa [decimalDigits_of_ne_zero h] using h

theorem decimalDigits_lt_ten (n : Nat) : ∀ d ∈ decimalDigits n, d < 10 := by
  obtain rfl | h := eq_or_ne n 0
  · simp
  · rw [decimalDigits_of_ne_zero h]
    exact digitString_lt_ten n

@[simp] theorem decimalValue_decimalDigits (n : Nat) : decimalValue (decimalDigits n) = n := by
  obtain rfl | h := eq_or_ne n 0
  · rfl
  · rw [decimalDigits_of_ne_zero h, decimalValue_digitString]

/-- The decimal digits of a number have no leading zero but in `0` itself. -/
theorem decimalDigits_noLeadingZero (n : Nat) : decimalDigits n = [0] ∨ (decimalDigits n).head? ≠ some 0 := by
  obtain rfl | h := eq_or_ne n 0
  · exact .inl rfl
  · exact .inr (decimalDigits_of_ne_zero h ▸ head?_digitString n)

/-- A nonempty digit string with no leading zero but `0` itself is the decimal digits of its value. -/
theorem decimalDigits_decimalValue {ds : List Nat} (h : ∀ d ∈ ds, d < 10) (hne : ds ≠ [])
    (hzero : ds = [0] ∨ ds.head? ≠ some 0) : decimalDigits (decimalValue ds) = ds := by
  obtain rfl | hhead := hzero
  · rfl
  · obtain ⟨d, ds, rfl⟩ := List.exists_cons_of_ne_nil hne
    have hd : d ≠ 0 := by simpa using hhead
    have hstring := digitString_decimalValue_cons h hd
    have hvalue : decimalValue (d :: ds) ≠ 0 := by
      rw [Ne, ← digitString_eq_nil_iff, hstring]
      exact List.cons_ne_nil _ _
    rw [decimalDigits_of_ne_zero hvalue, hstring]

/-- Trimming a digit string gives the decimal digits of its value (R139). -/
theorem trimDigits_eq_decimalDigits {ds : List Nat} (h : ∀ d ∈ ds, d < 10) :
    trimDigits ds = decimalDigits (decimalValue ds) := by
  rw [trimDigits, dropZeros_eq_digitString h]
  split
  · next hnil => rw [(digitString_eq_nil_iff _).1 (List.isEmpty_iff.1 hnil), decimalDigits_zero]
  · next hne => exact (decimalDigits_of_ne_zero fun h0 => hne (by simp [h0])).symm

/-! ### Zero-padded digits (R133, R139) -/

@[simp] theorem length_padDigits (k : Nat) : ∀ n, (padDigits k n).length = k := by
  induction k with
  | zero => intro n; rfl
  | succ k ih => intro n; simp [padDigits, ih]

theorem padDigits_lt_ten (k : Nat) : ∀ n, ∀ d ∈ padDigits k n, d < 10 := by
  induction k with
  | zero => intro n d hd; simp [padDigits] at hd
  | succ k ih =>
    intro n d hd
    obtain hd | rfl := by simpa [padDigits] using hd
    · exact ih _ d hd
    · omega

/-- The `k` padded digits of a number hold it when it is below `10^k`. -/
theorem decimalValue_padDigits {k : Nat} : ∀ {n : Nat}, n < 10 ^ k → decimalValue (padDigits k n) = n := by
  induction k with
  | zero => intro n hn; simp only [pow_zero, Nat.lt_one_iff] at hn; simp [padDigits, hn]
  | succ k ih =>
    intro n hn
    rw [pow_succ] at hn
    rw [padDigits, decimalValue_append, ih (by omega), decimalValue_singleton, List.length_singleton]
    omega

/-- Zeros on the left do not change the value. -/
@[simp] theorem decimalValue_padLeft (len : Nat) (ds : List Nat) : decimalValue (padLeft len ds) = decimalValue ds := by
  rw [padLeft, decimalValue_append, decimalValue_eq_ofDigits (List.replicate _ _)]
  simp

theorem length_padLeft {len : Nat} {ds : List Nat} (h : ds.length ≤ len) : (padLeft len ds).length = len := by
  simp [padLeft]; omega

theorem padLeft_lt_ten {ds : List Nat} (h : ∀ d ∈ ds, d < 10) (len : Nat) : ∀ d ∈ padLeft len ds, d < 10 := by
  intro d hd
  obtain ⟨-, rfl⟩ | hd := by simpa [padLeft] using hd
  · norm_num
  · exact h d hd

end Sys2Proof.Machine
end

section
/-! ## Decimal text: its form, its value, and the text of a number (R130, R131, R137, R141) -/

namespace Sys2Proof.Machine

/-! ### Digit bytes (R57) -/

theorem isDigit_iff (b : Byte) : isDigit b = true ↔ ∃ d, d < 10 ∧ b = digitByte d := by
  rw [isDigit, Bool.and_eq_true, decide_eq_true_eq, decide_eq_true_eq]
  constructor
  · rintro ⟨hlow, hhigh⟩
    refine ⟨b.toNat - 0x30, by omega, BitVec.eq_of_toNat_eq ?_⟩
    rw [digitByte, BitVec.toNat_ofNat]
    omega
  · rintro ⟨d, hd, rfl⟩
    rw [digitByte, BitVec.toNat_ofNat]
    omega

theorem digitOf_digitByte {d : Nat} (h : d < 10) : digitOf (digitByte d) = d := by
  rw [digitOf, digitByte, BitVec.toNat_ofNat]
  omega

theorem digitByte_eq_zero_iff {d : Nat} (h : d < 10) : digitByte d = 0x30#8 ↔ d = 0 := by
  constructor
  · intro hzero
    rw [← digitOf_digitByte h, hzero]
    rfl
  · rintro rfl
    rfl

theorem map_digitOf_map_digitByte {ds : List Nat} (h : ∀ d ∈ ds, d < 10) : (ds.map digitByte).map digitOf = ds := by
  rw [List.map_map]
  exact (List.map_congr_left fun d hd => digitOf_digitByte (h d hd)).trans (List.map_id ds)

/-- The digit strings of text are the bytes of nonempty digit strings of numbers (R57, R130). -/
theorem digitBytes_iff (t : List Byte) :
    digitBytes t = true ↔ ∃ ds : List Nat, ds ≠ [] ∧ (∀ d ∈ ds, d < 10) ∧ t = ds.map digitByte := by
  have hdef : digitBytes t = true ↔ t ≠ [] ∧ ∀ b ∈ t, isDigit b = true := by simp [digitBytes, isDigit]
  rw [hdef]
  constructor
  · rintro ⟨hne, hall⟩
    refine ⟨t.map digitOf, by simpa using hne, fun d hd => ?_, ?_⟩
    · obtain ⟨b, hb, rfl⟩ := List.mem_map.1 hd
      obtain ⟨d, hlt, rfl⟩ := (isDigit_iff b).1 (hall b hb)
      rwa [digitOf_digitByte hlt]
    · rw [List.map_map]
      refine ((List.map_congr_left fun b hb => ?_).trans (List.map_id t)).symm
      obtain ⟨d, hlt, rfl⟩ := (isDigit_iff b).1 (hall b hb)
      rw [Function.comp_apply, digitOf_digitByte hlt, id]
  · rintro ⟨ds, hne, hlt, rfl⟩
    refine ⟨by simpa using hne, fun b hb => ?_⟩
    obtain ⟨d, hd, rfl⟩ := List.mem_map.1 hb
    exact (isDigit_iff _).2 ⟨d, hlt d hd, rfl⟩

/-- The digit sum of text is the value of its digits (R131). -/
theorem digitSum_eq_decimalValue (t : List Byte) : digitSum t = decimalValue (t.map digitOf) := by
  induction t with
  | nil => rfl
  | cons b t ih => rw [digitSum, ih, List.map_cons, decimalValue_cons, List.length_map, digitOf]

theorem noLeadingZero_map_digitByte {ds : List Nat} (h : ∀ d ∈ ds, d < 10) :
    noLeadingZero (ds.map digitByte) = true ↔ ds = [0] ∨ ds.head? ≠ some 0 := by
  cases ds with
  | nil => simp [noLeadingZero]
  | cons d ds => simp [noLeadingZero, digitByte_eq_zero_iff (h d List.mem_cons_self), and_comm]

/-! ### The sign and the digits of a text (R130) -/

/-- Every text is its optional sign and the rest. -/
theorem eq_signedText (t : List Byte) : t = signedText (hasMinus t) (digitPart t) := by
  cases t with
  | nil => rfl
  | cons b t =>
    obtain rfl | hb := eq_or_ne b minusByte
    · simp [signedText, hasMinus, digitPart, minusByte]
    · simp [signedText, hasMinus, digitPart, hb]

theorem validText_eq (t : List Byte) : validText t = digitBytes (digitPart t) := by
  rw [validText]
  cases digitPart t <;> rfl

theorem hasMinus_map_digitByte {ds : List Nat} (h : ∀ d ∈ ds, d < 10) : hasMinus (ds.map digitByte) = false := by
  cases ds with
  | nil => rfl
  | cons d ds =>
    have hdigit : isDigit (digitByte d) = true := (isDigit_iff _).2 ⟨d, h d List.mem_cons_self, rfl⟩
    have hne : digitByte d ≠ minusByte := fun heq => absurd (heq ▸ hdigit) (by decide)
    simp [hasMinus, hne]

section

variable {ds : List Nat} (h : ∀ d ∈ ds, d < 10)
include h

theorem hasMinus_signedText (neg : Bool) : hasMinus (signedText neg (ds.map digitByte)) = neg := by
  cases neg with
  | false => exact hasMinus_map_digitByte h
  | true => rfl

theorem digitPart_signedText (neg : Bool) : digitPart (signedText neg (ds.map digitByte)) = ds.map digitByte := by
  rw [digitPart, hasMinus_signedText h]
  cases neg <;> rfl

/-- The value of a sign and digits (R131). -/
theorem parseValue_signedText (neg : Bool) :
    parseValue (signedText neg (ds.map digitByte)) = enc (signedValue neg (decimalValue ds)) := by
  simp only [parseValue, hasMinus_signedText h, digitPart_signedText h, map_digitOf_map_digitByte h, signedValue]

end

/-- Settles O28: valid text splits into its sign and its digits, and a digit is no sign. -/
theorem validTextIsOptionalMinusThenDigits : Obligations.ValidTextIsOptionalMinusThenDigits := by
  intro t
  constructor
  · intro hvalid
    exact ⟨hasMinus t, digitPart t, validText_eq t ▸ hvalid, eq_signedText t⟩
  · rintro ⟨neg, t, hdigits, rfl⟩
    obtain ⟨ds, -, hlt, rfl⟩ := (digitBytes_iff t).1 hdigits
    rwa [validText_eq, digitPart_signedText hlt]

/-- Settles O29: the sign is read off, and the digit sum is the value of the digits. -/
theorem parseValueIsTheSignedDigitSum : Obligations.ParseValueIsTheSignedDigitSum := by
  intro neg t hdigits
  obtain ⟨ds, -, hlt, rfl⟩ := (digitBytes_iff t).1 hdigits
  rw [parseValue_signedText hlt, digitSum_eq_decimalValue, map_digitOf_map_digitByte hlt]

/-! ### The rendered text (R137) -/

/-- The text is the sign, for a value below zero, and the decimal digits of the magnitude. -/
theorem renderText_eq (r : BigReg) : renderText r =
    signedText (r.neg && decide (magValue r.mag ≠ 0)) ((decimalDigits (magValue r.mag)).map digitByte) := by
  have hbne : (magValue r.mag != 0) = decide (magValue r.mag ≠ 0) := by simp [bne, Bool.beq_eq_decide_eq]
  rw [renderText, hbne]
  rfl

/-- The decimal digits of a number are digit text without leading zeros. -/
theorem digitBytes_decimalDigits (n : Nat) : digitBytes ((decimalDigits n).map digitByte) = true :=
  (digitBytes_iff _).2 ⟨_, decimalDigits_ne_nil n, decimalDigits_lt_ten n, rfl⟩

/-- Settles O32: the text's digits are the decimal digits of the magnitude. -/
theorem renderedTextIsTheDecimalText : Obligations.RenderedTextIsTheDecimalText := by
  intro r
  refine ⟨_, renderText_eq r, digitBytes_decimalDigits _,
    (noLeadingZero_map_digitByte (decimalDigits_lt_ten _)).2 (decimalDigits_noLeadingZero _), ?_⟩
  rw [digitSum_eq_decimalValue, map_digitOf_map_digitByte (decimalDigits_lt_ten _), decimalValue_decimalDigits]

/-! ### Parsing and rendering are inverse (R141) -/

theorem validText_renderText (r : BigReg) : validText (renderText r) = true :=
  (validTextIsOptionalMinusThenDigits _).2 ⟨_, _, digitBytes_decimalDigits _, renderText_eq r⟩

/-- The value of a sign and a magnitude does not depend on the sign of zero (R15, R17). -/
theorem signedValue_eq_val (r : BigReg) :
    signedValue (r.neg && decide (magValue r.mag ≠ 0)) (magValue r.mag) = r.val := by
  obtain hzero | hne := eq_or_ne (magValue r.mag) 0
  · simp [signedValue, BigReg.val, hzero]
  · simp [signedValue, BigReg.val, hne]

/-- The value of the rendered text is the register value's representation. -/
theorem parseValue_renderText (r : BigReg) : parseValue (renderText r) = enc r.val := by
  rw [renderText_eq, parseValue_signedText (decimalDigits_lt_ten _), decimalValue_decimalDigits, signedValue_eq_val]

/-- The text of a signed number; `-0` has the text of 0. -/
theorem renderText_enc_signedValue (neg : Bool) (n : Nat) :
    renderText (enc (signedValue neg n)) = signedText (neg && decide (n ≠ 0)) ((decimalDigits n).map digitByte) := by
  have hmag : magValue (enc (signedValue neg n)).mag = n := by
    cases neg <;> simp [enc, signedValue]
  have hneg : (enc (signedValue neg n)).neg = (neg && decide (n ≠ 0)) := by
    cases neg <;> simp [enc, signedValue, Nat.pos_iff_ne_zero]
  rw [renderText_eq, hmag, hneg, Bool.and_assoc, Bool.and_self]

/-- Settles O36: a canonical text has the decimal digits of its value, and a canonical value is `enc` of its value. -/
theorem parseAndRenderAreInverse : Obligations.ParseAndRenderAreInverse := by
  refine ⟨fun neg t hdigits hzero hminus => ?_, fun r hr =>
    ⟨validText_renderText r, (parseValue_renderText r).trans (BigReg.eq_enc_val hr).symm⟩⟩
  obtain ⟨ds, hne, hlt, rfl⟩ := (digitBytes_iff t).1 hdigits
  have hcanon : decimalDigits (decimalValue ds) = ds :=
    decimalDigits_decimalValue hlt hne ((noLeadingZero_map_digitByte hlt).1 hzero)
  have hsign : neg = true → decimalValue ds ≠ 0 := by
    rintro rfl h0
    rw [h0, decimalDigits_zero] at hcanon
    exact hminus ⟨rfl, by rw [← hcanon]; rfl⟩
  rw [parseValue_signedText hlt, renderText_enc_signedValue, hcanon]
  cases neg with
  | false => rfl
  | true => rw [decide_eq_true (hsign rfl), Bool.and_self]

end Sys2Proof.Machine
end

section
/-! ## The reference conversion from decimal text (R132 to R134) -/

namespace Sys2Proof.Machine

/-! ### The chunks of a digit string (R133) -/

theorem flatten_chunksFrom {c : Nat} (hc : 1 ≤ c) (bound : Nat) : ∀ ds : List Nat, ds.length ≤ bound →
    (chunksFrom c bound ds).flatten = ds := by
  induction bound with
  | zero => intro ds h; rw [List.length_eq_zero_iff.1 (Nat.le_zero.1 h)]; rfl
  | succ bound ih =>
    intro ds h
    rw [chunksFrom]
    split
    · next hnil => rw [List.isEmpty_iff.1 hnil]; rfl
    · rw [List.flatten_cons, ih _ (by rw [List.length_drop]; omega), List.take_append_drop]

/-- The chunks of a string make it up again. -/
theorem flatten_chunks {c : Nat} (hc : 1 ≤ c) (ds : List Nat) : (chunks c ds).flatten = ds :=
  flatten_chunksFrom hc _ ds le_rfl

theorem length_le_of_mem_chunksFrom {c : Nat} (bound : Nat) : ∀ {ds ch : List Nat}, ch ∈ chunksFrom c bound ds →
    ch.length ≤ c := by
  induction bound with
  | zero => intro ds ch h; simp [chunksFrom] at h
  | succ bound ih =>
    intro ds ch h
    rw [chunksFrom] at h
    split at h
    · simp at h
    · obtain rfl | h := List.mem_cons.1 h
      · exact List.length_take_le _ _
      · exact ih h

/-- A chunk read after a partial remainder below `q` stays below `q` shifted by the chunk (R133). -/
theorem partialValue_lt_mul_pow {q r : Nat} {ch : List Nat} (hr : r < q) (hch : ∀ d ∈ ch, d < 10) :
    r * 10 ^ ch.length + decimalValue ch < q * 10 ^ ch.length :=
  calc r * 10 ^ ch.length + decimalValue ch
      < (r + 1) * 10 ^ ch.length := by rw [add_one_mul]; exact Nat.add_lt_add_left (decimalValue_lt hch) _
    _ ≤ q * 10 ^ ch.length := Nat.mul_le_mul_right _ hr

section

variable {c : Nat} (hc : 1 ≤ c) {ds : List Nat} (hds : ∀ d ∈ ds, d < 10)
include hc hds

/-- The chunks of a digit string are digit strings. -/
theorem chunk_lt_ten : ∀ ch ∈ chunks c ds, ∀ d ∈ ch, d < 10 := fun _ hch d hd =>
  hds d (flatten_chunks hc ds ▸ List.mem_flatten_of_mem hch hd)

/-- No partial value of the division reaches `2^64` with chunks of at most 9 digits (R133). -/
theorem partialValue_lt (hc9 : c ≤ 9) {r : Nat} (hr : r < 2 ^ 32) {ch : List Nat} (hch : ch ∈ chunks c ds) :
    r * 10 ^ ch.length + decimalValue ch < 2 ^ 64 := by
  have hlen : ch.length ≤ 9 := (length_le_of_mem_chunksFrom _ hch).trans hc9
  calc r * 10 ^ ch.length + decimalValue ch
      < 2 ^ 32 * 10 ^ ch.length := partialValue_lt_mul_pow hr (chunk_lt_ten hc hds ch hch)
    _ ≤ 2 ^ 32 * 10 ^ 9 := Nat.mul_le_mul_left _ (Nat.pow_le_pow_right (by norm_num) hlen)
    _ < 2 ^ 64 := by norm_num

end

/-! ### Division in string space (R133) -/

/-- The scan gives one quotient digit for each digit it reads. -/
theorem length_strDivScan (q : Nat) (chs : List (List Nat)) : ∀ r,
    (strDivScan q chs r).1.length = chs.flatten.length := by
  induction chs with
  | nil => intro r; rfl
  | cons ch chs ih => intro r; simp [strDivScan, ih]

theorem strDivScan_lt_ten (q : Nat) (chs : List (List Nat)) : ∀ r, ∀ d ∈ (strDivScan q chs r).1, d < 10 := by
  induction chs with
  | nil => intro r d hd; simp [strDivScan] at hd
  | cons ch chs ih =>
    intro r d hd
    obtain hd | hd := List.mem_append.1 hd
    · exact padDigits_lt_ten _ _ d hd
    · exact ih _ d hd

section

variable {q : Nat}

theorem strDivScan_remainder_lt (chs : List (List Nat)) : ∀ {r : Nat}, r < q → (strDivScan q chs r).2 < q := by
  induction chs with
  | nil => intro r hr; exact hr
  | cons ch chs ih => intro r hr; exact ih (Nat.mod_lt _ (by omega))

/-- Quotient and remainder make up the partial remainder and the digits read. -/
theorem strDivScan_value (chs : List (List Nat)) : ∀ {r : Nat}, r < q → (∀ ch ∈ chs, ∀ d ∈ ch, d < 10) →
    q * decimalValue (strDivScan q chs r).1 + (strDivScan q chs r).2 =
      r * 10 ^ chs.flatten.length + decimalValue chs.flatten := by
  induction chs with
  | nil => intro r hr _; simp [strDivScan]
  | cons ch chs ih =>
    intro r hr hten
    have hq : 0 < q := by omega
    rw [strDivScan]
    set x := r * 10 ^ ch.length + decimalValue ch with hx
    have hrest := ih (r := x % q) (Nat.mod_lt _ hq) fun c hc => hten c (List.mem_cons_of_mem _ hc)
    have hquotient : x / q < 10 ^ ch.length :=
      Nat.div_lt_of_lt_mul (partialValue_lt_mul_pow hr (hten ch List.mem_cons_self))
    dsimp only
    rw [decimalValue_append, decimalValue_padDigits hquotient, length_strDivScan, List.flatten_cons,
      List.length_append, decimalValue_append, pow_add]
    calc q * (x / q * 10 ^ chs.flatten.length + decimalValue (strDivScan q chs (x % q)).1) +
          (strDivScan q chs (x % q)).2
        = (q * (x / q)) * 10 ^ chs.flatten.length +
          (q * decimalValue (strDivScan q chs (x % q)).1 + (strDivScan q chs (x % q)).2) := by ring
      _ = (q * (x / q) + x % q) * 10 ^ chs.flatten.length + decimalValue chs.flatten := by rw [hrest]; ring
      _ = r * (10 ^ ch.length * 10 ^ chs.flatten.length) +
          (decimalValue ch * 10 ^ chs.flatten.length + decimalValue chs.flatten) := by
        rw [Nat.div_add_mod, hx]; ring

/-- The division of a digit string: the digits of the quotient, and the remainder (R133). -/
theorem strDiv_eq {c : Nat} (hc : 1 ≤ c) {ds : List Nat} (hds : ∀ d ∈ ds, d < 10) (hq : 0 < q) :
    strDiv c ds q = (digitString (decimalValue ds / q), decimalValue ds % q) := by
  have hvalue := strDivScan_value (chunks c ds) hq (chunk_lt_ten hc hds)
  rw [flatten_chunks hc, zero_mul, zero_add] at hvalue
  obtain ⟨hquotient, hremainder⟩ := (Nat.div_mod_unique hq).2
    ⟨(add_comm _ _).trans hvalue, strDivScan_remainder_lt (chunks c ds) hq⟩
  rw [strDiv, dropZeros_eq_digitString (strDivScan_lt_ten _ _ _), hquotient, hremainder]

end

/-! ### The limbs by division (R132) -/

/-- The loop takes one limb of the number after the other. -/
theorem magValue_parseLoop {c : Nat} (hc : 1 ≤ c) (bound : Nat) : ∀ {n : Nat}, n < 2 ^ (64 * bound) →
    magValue (parseLoop c bound (digitString n)) = n := by
  induction bound with
  | zero => intro n hn; rw [show n = 0 by omega]; rfl
  | succ bound ih =>
    intro n hn
    rw [two_pow_limbs_succ] at hn
    rw [parseLoop]
    split
    · next hnil => rw [(digitString_eq_nil_iff n).1 (List.isEmpty_iff.1 hnil), magValue_nil]
    · have hdiv : ∀ m, strDiv c (digitString m) (2 ^ 32) = (digitString (m / 2 ^ 32), m % 2 ^ 32) := fun m => by
        rw [strDiv_eq hc (digitString_lt_ten m) (by norm_num), decimalValue_digitString]
      simp only [hdiv, magValue_cons]
      rw [ih (n := n / 2 ^ 32 / 2 ^ 32) (by omega), BitVec.toNat_ofNat]
      omega

/-- The reference conversion gives the limbs of the number (R132). -/
theorem parseDigits_eq_limbsOf {c : Nat} (hc : 1 ≤ c) {ds : List Nat} (hds : ∀ d ∈ ds, d < 10) :
    parseDigits c ds = limbsOf (decimalValue ds) := by
  have hbound : decimalValue ds < 2 ^ (64 * ds.length) :=
    calc decimalValue ds < 10 ^ ds.length := decimalValue_lt hds
      _ ≤ (2 ^ 64) ^ ds.length := Nat.pow_le_pow_left (by norm_num) _
      _ = 2 ^ (64 * ds.length) := (pow_mul _ _ _).symm
  have hloop := magValue_parseLoop hc ds.length hbound
  rw [parseDigits, dropZeros_eq_digitString hds, canon_eq_limbsOf]
  split
  · next hnil => rw [← hloop, List.isEmpty_iff.1 hnil]; rfl
  · rw [hloop]

/-- Settles O30: a chunk's digits and the scan's remainder bound the partial value; division and conversion by value. -/
theorem referenceParsingGivesTheLimbs : Obligations.ReferenceParsingGivesTheLimbs := by
  intro c ds hc hc9 hds
  rw [strDiv_eq hc hds (by norm_num)]
  exact ⟨fun r ch hr hch => partialValue_lt hc hds hc9 hr hch,
    ⟨decimalValue_digitString _, head?_digitString _, rfl⟩, parseDigits_eq_limbsOf hc hds⟩

end Sys2Proof.Machine
end

section
/-! ## The reference conversion to decimal text (R138, R139) -/

namespace Sys2Proof.Machine

/-! ### Chunks of one width (R139) -/

/-- A string of `k` times `c` digits has `k` chunks, all of `c` digits. -/
theorem chunksFrom_of_length_eq_mul {c : Nat} (hc : 1 ≤ c) (k : Nat) : ∀ {bound : Nat} {ds : List Nat},
    ds.length = k * c → k ≤ bound →
    (chunksFrom c bound ds).length = k ∧ ∀ ch ∈ chunksFrom c bound ds, ch.length = c := by
  induction k with
  | zero =>
    intro bound ds hlen _
    rw [List.length_eq_zero_iff.1 (hlen.trans (zero_mul c))]
    cases bound <;> simp [chunksFrom]
  | succ k ih =>
    intro bound ds hlen hbound
    obtain ⟨bound, rfl⟩ := Nat.exists_eq_add_of_le' (show 1 ≤ bound by omega)
    rw [add_one_mul] at hlen
    have hne : ds.isEmpty = false := by
      rw [List.isEmpty_eq_false_iff, ← List.length_pos_iff]
      omega
    obtain ⟨hcount, hwidth⟩ := ih (bound := bound) (ds := ds.drop c) (by rw [List.length_drop]; omega) (by omega)
    rw [chunksFrom, hne, if_neg Bool.false_ne_true]
    refine ⟨by rw [List.length_cons, hcount], fun ch hch => ?_⟩
    obtain rfl | hch := List.mem_cons.1 hch
    · rw [List.length_take]; omega
    · exact hwidth ch hch

theorem chunks_of_length_eq_mul {c : Nat} (hc : 1 ≤ c) {k : Nat} {ds : List Nat} (h : ds.length = k * c) :
    (chunks c ds).length = k ∧ ∀ ch ∈ chunks c ds, ch.length = c :=
  chunksFrom_of_length_eq_mul hc k h (h ▸ Nat.le_mul_of_pos_right k hc)

/-! ### Addition in string space (R139) -/

/-- Two chunks of `c` digits. -/
structure ChunkPair (c : Nat) (p : List Nat × List Nat) : Prop where
  fst_length : p.1.length = c
  snd_length : p.2.length = c
  fst_lt_ten : ∀ d ∈ p.1, d < 10
  snd_lt_ten : ∀ d ∈ p.2, d < 10

/-- The carry out of one chunk is again 0 or 1. -/
theorem ChunkPair.carry_le {c carry : Nat} {p : List Nat × List Nat} (h : ChunkPair c p) (hcarry : carry ≤ 1) :
    (decimalValue p.1 + decimalValue p.2 + carry) / 10 ^ c ≤ 1 := by
  have hx := h.fst_length ▸ decimalValue_lt h.fst_lt_ten
  have hy := h.snd_length ▸ decimalValue_lt h.snd_lt_ten
  exact Nat.lt_succ_iff.1 ((Nat.div_lt_iff_lt_mul (by positivity)).2 (by omega))

/-- The sum of two chunks of at most 18 digits and a carry stays in a word. -/
theorem ChunkPair.sum_lt {c carry : Nat} {p : List Nat × List Nat} (h : ChunkPair c p) (hc : c ≤ 18)
    (hcarry : carry ≤ 1) : decimalValue p.1 + decimalValue p.2 + carry < 2 ^ 64 := by
  have hx := h.fst_length ▸ decimalValue_lt h.fst_lt_ten
  have hy := h.snd_length ▸ decimalValue_lt h.snd_lt_ten
  have hpow : 10 ^ c ≤ 10 ^ 18 := Nat.pow_le_pow_right (by norm_num) hc
  norm_num at hpow ⊢
  omega

section

variable {c : Nat}

/-- The digits of the chunks of one operand, the least significant chunk listed first. -/
def chunkDigits (chs : List (List Nat)) : List Nat := chs.reverse.flatten

theorem decimalValue_chunkDigits_cons (ch : List Nat) (chs : List (List Nat)) :
    decimalValue (chunkDigits (ch :: chs)) = decimalValue (chunkDigits chs) * 10 ^ ch.length + decimalValue ch := by
  simp [chunkDigits, decimalValue_append]

theorem strAddScan_carry_le (ps : List (List Nat × List Nat)) : ∀ {carry : Nat} {out : List Nat}, carry ≤ 1 →
    (∀ p ∈ ps, ChunkPair c p) → (strAddScan c ps carry out).2 ≤ 1 := by
  induction ps with
  | nil => intro carry out hcarry _; exact hcarry
  | cons p ps ih =>
    intro carry out hcarry hps
    exact ih ((hps p List.mem_cons_self).carry_le hcarry) fun p' hp' => hps p' (List.mem_cons_of_mem _ hp')

theorem strAddScan_lt_ten (ps : List (List Nat × List Nat)) : ∀ {carry : Nat} {out : List Nat},
    (∀ d ∈ out, d < 10) → ∀ d ∈ (strAddScan c ps carry out).1, d < 10 := by
  induction ps with
  | nil => intro carry out hout; exact hout
  | cons p ps ih =>
    intro carry out hout
    refine ih fun d hd => ?_
    obtain hd | hd := List.mem_append.1 hd
    · exact padDigits_lt_ten _ _ d hd
    · exact hout d hd

/-- The digits and the last carry hold the digits already out, and above them the sum of the operands and the carry. -/
theorem strAddScan_value (ps : List (List Nat × List Nat)) : ∀ {carry : Nat} {out : List Nat},
    (∀ p ∈ ps, ChunkPair c p) →
    (strAddScan c ps carry out).2 * 10 ^ (strAddScan c ps carry out).1.length +
        decimalValue (strAddScan c ps carry out).1 =
      (decimalValue (chunkDigits (ps.map Prod.fst)) + decimalValue (chunkDigits (ps.map Prod.snd)) + carry) *
        10 ^ out.length + decimalValue out := by
  induction ps with
  | nil => intro carry out _; simp [strAddScan, chunkDigits]
  | cons p ps ih =>
    intro carry out hps
    have hp := hps p List.mem_cons_self
    set sum := decimalValue p.1 + decimalValue p.2 + carry with hsum
    have hrest := ih (carry := sum / 10 ^ c) (out := padDigits c (sum % 10 ^ c) ++ out)
      fun p' hp' => hps p' (List.mem_cons_of_mem _ hp')
    rw [decimalValue_append, decimalValue_padDigits (Nat.mod_lt _ (by positivity)), List.length_append,
      length_padDigits, pow_add] at hrest
    have hdivmod := Nat.div_add_mod sum (10 ^ c)
    rw [strAddScan, ← hsum, hrest, List.map_cons, List.map_cons, decimalValue_chunkDigits_cons,
      decimalValue_chunkDigits_cons, hp.fst_length, hp.snd_length]
    set xs := decimalValue (chunkDigits (ps.map Prod.fst))
    set ys := decimalValue (chunkDigits (ps.map Prod.snd))
    calc (xs + ys + sum / 10 ^ c) * (10 ^ c * 10 ^ out.length) + (sum % 10 ^ c * 10 ^ out.length + decimalValue out)
        = ((xs + ys) * 10 ^ c + (10 ^ c * (sum / 10 ^ c) + sum % 10 ^ c)) * 10 ^ out.length + decimalValue out := by ring
      _ = (xs * 10 ^ c + decimalValue p.1 + (ys * 10 ^ c + decimalValue p.2) + carry) * 10 ^ out.length +
          decimalValue out := by rw [hdivmod, hsum]; ring

/-- A last carry of 0 or 1 is written as the first digit, or not at all. -/
theorem decimalValue_withCarry {carry : Nat} (h : carry ≤ 1) (ds : List Nat) :
    decimalValue (if carry = 1 then 1 :: ds else ds) = carry * 10 ^ ds.length + decimalValue ds := by
  obtain rfl | rfl := Nat.le_one_iff_eq_zero_or_eq_one.1 h
  · simp
  · simp [decimalValue_cons]

/-- The pairs of chunks of two operands, each padded to `k` chunks, most significant first (R139). -/
def chunkPairs (c k : Nat) (x y : List Nat) : List (List Nat × List Nat) :=
  (chunks c (padLeft (k * c) x)).zip (chunks c (padLeft (k * c) y))

variable (hc : 1 ≤ c)
include hc

theorem chunks_padLeft {k : Nat} {x : List Nat} (h : x.length ≤ k * c) :
    (chunks c (padLeft (k * c) x)).length = k ∧ ∀ ch ∈ chunks c (padLeft (k * c) x), ch.length = c :=
  chunks_of_length_eq_mul hc (length_padLeft h)

section

variable {k : Nat} {x y : List Nat} (hlenx : x.length ≤ k * c) (hleny : y.length ≤ k * c)
include hlenx hleny

theorem chunkPair_of_mem_chunkPairs (hx : ∀ d ∈ x, d < 10) (hy : ∀ d ∈ y, d < 10) :
    ∀ p ∈ chunkPairs c k x y, ChunkPair c p := by
  rintro ⟨chx, chy⟩ hp
  obtain ⟨hchx, hchy⟩ := List.of_mem_zip hp
  exact ⟨(chunks_padLeft hc hlenx).2 _ hchx, (chunks_padLeft hc hleny).2 _ hchy,
    chunk_lt_ten hc (padLeft_lt_ten hx _) _ hchx, chunk_lt_ten hc (padLeft_lt_ten hy _) _ hchy⟩

theorem chunkDigits_fst_chunkPairs : chunkDigits ((chunkPairs c k x y).reverse.map Prod.fst) = padLeft (k * c) x := by
  have hle := ((chunks_padLeft hc hlenx).1.trans (chunks_padLeft hc hleny).1.symm).le
  rw [chunkDigits, List.map_reverse, List.reverse_reverse, chunkPairs, List.map_fst_zip hle, flatten_chunks hc]

theorem chunkDigits_snd_chunkPairs : chunkDigits ((chunkPairs c k x y).reverse.map Prod.snd) = padLeft (k * c) y := by
  have hle := ((chunks_padLeft hc hleny).1.trans (chunks_padLeft hc hlenx).1.symm).le
  rw [chunkDigits, List.map_reverse, List.reverse_reverse, chunkPairs, List.map_snd_zip hle, flatten_chunks hc]

end

/-- The common length of the padded operands covers them with whole chunks. -/
theorem le_chunkedLength (n : Nat) : n ≤ (n + c - 1) / c * c := by
  have hdivmod := Nat.div_add_mod (n + c - 1) c
  have hmod := Nat.mod_lt (n + c - 1) hc
  rw [mul_comm] at hdivmod
  omega

/-- The addition of two digit strings gives the digits of the sum (R139). -/
theorem strAdd_eq {x y : List Nat} (hx : ∀ d ∈ x, d < 10) (hy : ∀ d ∈ y, d < 10) :
    strAdd c x y = decimalDigits (decimalValue x + decimalValue y) := by
  set k := (max x.length y.length + c - 1) / c
  set ps := (chunkPairs c k x y).reverse with hpairs
  have hcover : max x.length y.length ≤ k * c := le_chunkedLength hc _
  have hps : ∀ p ∈ ps, ChunkPair c p := fun p hp =>
    chunkPair_of_mem_chunkPairs hc (by omega) (by omega) hx hy p (List.mem_reverse.1 hp)
  have hcarry : (strAddScan c ps 0 []).2 ≤ 1 := strAddScan_carry_le ps (by omega) hps
  have hlt : ∀ d ∈ (strAddScan c ps 0 []).1, d < 10 := strAddScan_lt_ten ps (by simp)
  have hvalue := strAddScan_value (carry := 0) (out := []) ps hps
  rw [hpairs, chunkDigits_fst_chunkPairs hc (by omega) (by omega), chunkDigits_snd_chunkPairs hc (by omega) (by omega),
    decimalValue_padLeft, decimalValue_padLeft, ← hpairs] at hvalue
  have hdef : strAdd c x y = trimDigits
      (if (strAddScan c ps 0 []).2 = 1 then 1 :: (strAddScan c ps 0 []).1 else (strAddScan c ps 0 []).1) := rfl
  rw [hdef, trimDigits_eq_decimalDigits, decimalValue_withCarry hcarry, hvalue]
  · simp
  · split
    · simpa using hlt
    · exact hlt

/-! ### Doubling and the limbs (R138) -/

theorem strDouble_decimalDigits (k : Nat) : ∀ n, strDouble c k (decimalDigits n) = decimalDigits (2 ^ k * n) := by
  induction k with
  | zero => intro n; simp [strDouble]
  | succ k ih =>
    intro n
    rw [strDouble, strAdd_eq hc (decimalDigits_lt_ten n) (decimalDigits_lt_ten n), ih, decimalValue_decimalDigits]
    congr 1
    ring

/-- The reference conversion gives the decimal digits of the magnitude (R138). -/
theorem renderDigits_eq (m : List Limb) : renderDigits c m = decimalDigits (magValue m) := by
  induction m with
  | nil => rfl
  | cons l m ih =>
    rw [renderDigits, ih, strMul2e32, strMul2e32, strDouble_decimalDigits hc, strDouble_decimalDigits hc,
      strAdd_eq hc (decimalDigits_lt_ten _) (decimalDigits_lt_ten _), decimalValue_decimalDigits,
      decimalValue_decimalDigits, magValue_cons]
    congr 1
    ring

end

/-- Settles O34: the chunk bounds, and addition and conversion by value. -/
theorem referenceRenderingGivesTheDigits : Obligations.ReferenceRenderingGivesTheDigits := by
  intro c hc hc18
  refine ⟨fun x y carry hlenx hleny hx hy hcarry => ?_, fun x y => strAdd_eq hc, renderDigits_eq hc⟩
  have hpair : ChunkPair c (x, y) := ⟨hlenx, hleny, hx, hy⟩
  exact ⟨hpair.sum_lt hc18 hcarry, hpair.carry_le hcarry⟩

end Sys2Proof.Machine
end

section
/-! ## PARSE and RENDER on the block (R77, R135, R140, R141) -/

namespace Sys2Proof.Machine

/-! ### The argument's two words (R77) -/

theorem argOff_eq (A : Limb) : argOff A = A.toNat % 2 ^ 32 := by
  simp [argOff, BitVec.extractLsb'_toNat]

theorem argLen_eq (A : Limb) : argLen A = A.toNat / 2 ^ 32 := by
  have := A.isLt
  rw [argLen, BitVec.extractLsb'_toNat, Nat.shiftRight_eq_div_pow]
  omega

theorem argOff_append (len off : BusWord) : argOff (len ++ off) = off.toNat :=
  congrArg BitVec.toNat BitVec.extractLsb'_append_eq_right

theorem argLen_append (len off : BusWord) : argLen (len ++ off) = len.toNat :=
  congrArg BitVec.toNat BitVec.extractLsb'_append_eq_left

/-! ### A command's completion by its code (R14, R214) -/

section

variable {i : Instr} {s : State} (hwf : i.wfFor s.params.nreg = true)
include hwf

theorem exec_of_check_error {code : ErrCode} (hcheck : checkOf s i = code) (hcode : code ≠ .none) :
    exec i s = .next { s with err := code, pend := none } := by
  rw [exec_eq, errorOf, if_pos hwf, hcheck, State.complete, if_neg hcode]
  rfl

theorem exec_of_check_none (hcheck : checkOf s i = .none) : exec i s = .next ((effectOf s i).finish .none) := by
  rw [exec_eq, errorOf, if_pos hwf, hcheck, State.complete, if_pos rfl]

end

/-! ### PARSE (R135) -/

section

variable {rd off len : Nat} {s : State} (hoff : argOff s.latched = off) (hlen : argLen s.latched = len)
include hoff hlen

theorem checkOf_parse_of_fits (hfits : off + len ≤ s.params.tbufSize) : checkOf s (.parse rd) =
    if validText (s.memRead off len) then capacityCode s.params.lmax (parseValue (s.memRead off len))
    else .invalidFormat := by
  subst hoff hlen
  exact if_neg hfits.not_gt

variable (hrd : rd < s.params.nreg)
include hrd

theorem exec_parse_range (hrange : s.params.tbufSize < off + len) :
    exec (.parse rd) s = .next { s with err := .range, pend := none } := by
  subst hoff hlen
  exact exec_of_check_error (wfFor_of_used_one rfl hrd) (if_pos hrange) (by decide)

variable (hfits : off + len ≤ s.params.tbufSize)
include hfits

theorem exec_parse_invalidFormat (hinvalid : validText (s.memRead off len) = false) :
    exec (.parse rd) s = .next { s with err := .invalidFormat, pend := none } := by
  refine exec_of_check_error (wfFor_of_used_one rfl hrd) ?_ (by decide)
  rw [checkOf_parse_of_fits hoff hlen hfits, hinvalid, if_neg Bool.false_ne_true]

variable (hvalid : validText (s.memRead off len) = true)
include hvalid

theorem exec_parse_capacity (hlong : s.params.lmax < (parseValue (s.memRead off len)).mag.length) :
    exec (.parse rd) s = .next { s with err := .capacity, pend := none } := by
  refine exec_of_check_error (wfFor_of_used_one rfl hrd) ?_ (by decide)
  rw [checkOf_parse_of_fits hoff hlen hfits, if_pos hvalid, capacityCode, if_pos hlong]

theorem exec_parse_value (hshort : (parseValue (s.memRead off len)).mag.length ≤ s.params.lmax) :
    exec (.parse rd) s =
      .next { s with regs := s.regs.set rd (parseValue (s.memRead off len)), err := .none, pend := none } := by
  rw [exec_of_check_none (wfFor_of_used_one rfl hrd), effectOf_of_dest rfl]
  · subst hoff hlen
    rfl
  · rw [checkOf_parse_of_fits hoff hlen hfits, if_pos hvalid, capacityCode, if_neg hshort.not_gt]

end

/-- Settles O31: the row, the ILLEGAL index, and the four outcomes of the checks in their order. -/
theorem parseLoadsDecimalText : Obligations.ParseLoadsDecimalText := by
  refine ⟨rowDecodes_of_commandOf rfl fun _ _ _ => rfl, fun rd s c A hpend =>
    ⟨exec_illegalOutside _ s, fun hrd => ?_⟩⟩
  have hlatched : s.latched = A := s.latched_pending _ hpend
  have hoff : argOff s.latched = A.toNat % 2 ^ 32 := by rw [hlatched, argOff_eq]
  have hlen : argLen s.latched = A.toNat / 2 ^ 32 := by rw [hlatched, argLen_eq]
  exact ⟨exec_parse_range hoff hlen hrd, fun hfits => ⟨exec_parse_invalidFormat hoff hlen hrd hfits,
    exec_parse_capacity hoff hlen hrd hfits, exec_parse_value hoff hlen hrd hfits⟩⟩

/-! ### RENDER (R140) -/

section

variable {ra off : Nat} {s : State} (hra : ra < s.params.nreg) (hoff : argOff s.latched = off)
include hra hoff

theorem exec_render_range (hrange : s.params.tbufSize < off + (renderText (s.reg ra)).length) :
    exec (.render ra) s = .next { s with err := .range, pend := none } := by
  subst hoff
  exact exec_of_check_error (wfFor_of_used_one rfl hra) (if_pos hrange) (by decide)

theorem exec_render_text (hfits : off + (renderText (s.reg ra)).length ≤ s.params.tbufSize) :
    exec (.render ra) s = .next (((s.memWrite off (renderText (s.reg ra))).writeRes
      (BitVec.ofNat 64 (renderText (s.reg ra)).length)).finish .none) := by
  subst hoff
  have hcheck : checkOf s (.render ra) = .none := if_neg hfits.not_gt
  rw [exec_of_check_none (wfFor_of_used_one rfl hra) hcheck, effectOf_of_no_dest rfl]
  rfl

end

/-- Settles O35: the row, the ILLEGAL index, RANGE, and the text read back from where it was written. -/
theorem renderWritesTheText : Obligations.RenderWritesTheText := by
  refine ⟨rowDecodes_of_commandOf rfl fun _ _ _ => rfl, fun ra s c A hpend =>
    ⟨exec_illegalOutside _ s, fun hra => ?_⟩⟩
  have hoff : argOff s.latched = A.toNat % 2 ^ 32 := by rw [s.latched_pending _ hpend, argOff_eq]
  refine ⟨exec_render_range hra hoff, fun hfits => ⟨_, exec_render_text hra hoff hfits,
    s.memRead_memWrite _ _, s.readByte_memWrite_outside _ _, ?_⟩⟩
  rw [State.memWrite_eq]
  rfl

/-! ### RENDER, then PARSE of the same bytes (R141) -/

@[simp] theorem State.memWrite_params (s : State) (a : Nat) (bs : List Byte) :
    (s.memWrite a bs).params = s.params := by
  rw [State.memWrite_eq]

@[simp] theorem State.memWrite_regs (s : State) (a : Nat) (bs : List Byte) : (s.memWrite a bs).regs = s.regs := by
  rw [State.memWrite_eq]

/-- Settles O37: PARSE finds the rendered text at the same offset and length, and its value is the register's. -/
theorem renderThenParseRestoresTheRegister : Obligations.RenderThenParseRestoresTheRegister := by
  intro ra rd s c c' A hpend hparams hregs hra hrd hlegal hfits
  obtain ⟨-, -, -, htbuf, -⟩ := (params_legal_iff _).1 hparams
  obtain ⟨hcanon, hshort⟩ := (BigReg.legal_iff _ _).1 hlegal
  have hoff : argOff s.latched = A.toNat % 2 ^ 32 := by rw [s.latched_pending _ hpend, argOff_eq]
  have hrender := exec_render_text hra hoff hfits
  have hvalue : parseValue (renderText (s.reg ra)) = s.reg ra :=
    (parseValue_renderText _).trans (BigReg.eq_enc_val hcanon).symm
  have hvalid : validText (renderText (s.reg ra)) = true := validText_renderText _
  set off := A.toNat % 2 ^ 32
  set text := renderText (s.reg ra)
  set t := ((s.memWrite off text).writeRes (BitVec.ofNat 64 text.length)).finish .none with ht
  set s' : State := { t with pend := some ⟨c', BitVec.ofNat 32 t.res.toNat ++ A.extractLsb' 0 32⟩ }
  have hoff' : argOff s'.latched = off := (argOff_append _ _).trans (argOff_eq A)
  have hlen' : argLen s'.latched = text.length := by
    refine (argLen_append _ _).trans ?_
    rw [ht, State.finish_res, State.writeRes_res, BitVec.toNat_ofNat, BitVec.toNat_ofNat]
    omega
  have hparams' : s'.params = s.params := State.memWrite_params s off text
  have hregs' : s'.regs = s.regs := State.memWrite_regs s off text
  have hread : s'.memRead off text.length = text := s.memRead_memWrite off text
  have hparse := exec_parse_value hoff' hlen' (hparams' ▸ hrd) (hparams' ▸ hfits) (hread.symm ▸ hvalid)
    (by rw [hread, hvalue, hparams']; exact hshort)
  rw [hread, hvalue] at hparse
  exact ⟨t, _, hrender, rfl, hparse, rfl, s'.reg_writeReg_same rd _ (by rw [hregs', hregs]; exact hrd)⟩

end Sys2Proof.Machine
end

section
/-! ## ADD, SUB and NEG (R165 to R169) -/

namespace Sys2Proof.Machine

/-- Settles O38: the limb procedure computes `enc` of the signed sum for either operation sign. -/
theorem addCoreComputesTheSignedSum : Obligations.AddCoreComputesTheSignedSum := fun _ _ ha hb =>
  ⟨addCore_eq_enc ha hb .plus, addCore_eq_enc ha hb .minus⟩

/-! ### A command that checks its result's length alone (R166, R195) -/

theorem length_enc (v : Int) : (enc v).mag.length = limbCount v.natAbs := length_limbsOf _

/-- The length check is the bound on the magnitude (R48, R166). -/
theorem length_enc_le_iff {lmax : Nat} (hlmax : 1 ≤ lmax) (v : Int) :
    (enc v).mag.length ≤ lmax ↔ v.natAbs < 2 ^ (64 * lmax) := by
  rw [length_enc, limbCount_le_iff, and_iff_right hlmax]

/-- A command whose one error is CAPACITY checks the length of its result and nothing else (R212). -/
theorem checkOf_of_capacity_alone {i : Instr} (s : State) (h : errorsOf i = [.none, .capacity]) :
    checkOf s i = capacityCode s.params.lmax (resultOf s i) := by
  cases i with
  | add | sub | mul => rfl
  | ldi | ldu | mov | neg | cmp | cmpm | cmpu | rdlimb | rdinfo | parse | render => simp [errorsOf] at h

section

variable {i : Instr} {s : State} {rd : Nat} (hwf : i.wfFor s.params.nreg = true)
  (hcapacity : errorsOf i = [.none, .capacity])
include hwf hcapacity

theorem exec_register_of_fits (dest : destOf i = some rd) (hfits : (resultOf s i).mag.length ≤ s.params.lmax) :
    exec i s = .next { s with regs := s.regs.set rd (resultOf s i), err := .none, pend := none } := by
  have hcheck : checkOf s i = .none := by
    rw [checkOf_of_capacity_alone s hcapacity, capacityCode, if_neg hfits.not_gt]
  rw [exec_of_check_none hwf hcheck, effectOf_of_dest dest]
  rfl

theorem exec_capacity_of_too_long (hlong : s.params.lmax < (resultOf s i).mag.length) :
    exec i s = .next { s with err := .capacity, pend := none } := by
  refine exec_of_check_error hwf ?_ (by decide)
  rw [checkOf_of_capacity_alone s hcapacity, capacityCode, if_pos hlong]

/-- The two completions of a command that computes `enc v`: `v` fits `LMAX` limbs and is written, or CAPACITY. -/
theorem exec_enc_or_capacity (hlegal : s.params.legal = true) (dest : destOf i = some rd) {v : Int}
    (hresult : resultOf s i = enc v) :
    (v.natAbs < 2 ^ (64 * s.params.lmax) →
      exec i s = .next { s with regs := s.regs.set rd (enc v), err := .none, pend := none }) ∧
    (2 ^ (64 * s.params.lmax) ≤ v.natAbs → exec i s = .next { s with err := .capacity, pend := none }) := by
  obtain ⟨-, ⟨hlmax, -⟩, -⟩ := (params_legal_iff _).1 hlegal
  have hlength := length_enc_le_iff hlmax v
  rw [← hresult] at hlength ⊢
  exact ⟨fun hsmall => exec_register_of_fits hwf hcapacity dest (hlength.2 hsmall),
    fun hlarge => exec_capacity_of_too_long hwf hcapacity
      (Nat.lt_of_not_le fun hfits => hlarge.not_gt (hlength.1 hfits))⟩

end

theorem wfFor_of_used_three {nreg : Nat} {i : Instr} {f g k : Nat} (hused : i.used = [f, g, k]) (hf : f < nreg)
    (hg : g < nreg) (hk : k < nreg) : i.wfFor nreg = true := by
  simpa [wfFor_iff, hused] using ⟨hf, hg, hk⟩

/-! ### The three commands (R167 to R169) -/

/-- Settles O39: ADD's result is `enc` of the sum, checked against `LMAX`. -/
theorem addWritesTheSum : Obligations.AddWritesTheSum :=
  ⟨rowDecodes_of_commandOf rfl fun _ _ _ => rfl, fun _ _ _ s => ⟨exec_illegalOutside _ s,
    fun hlegal hrd hra hrb ha hb => exec_enc_or_capacity (wfFor_of_used_three rfl hrd hra hrb) rfl hlegal rfl
      (addCore_eq_enc ha hb .plus)⟩⟩

/-- Settles O40: SUB's result is `enc` of the difference, checked against `LMAX`. -/
theorem subWritesTheDifference : Obligations.SubWritesTheDifference :=
  ⟨rowDecodes_of_commandOf rfl fun _ _ _ => rfl, fun _ _ _ s => ⟨exec_illegalOutside _ s,
    fun hlegal hrd hra hrb ha hb => exec_enc_or_capacity (wfFor_of_used_three rfl hrd hra hrb) rfl hlegal rfl
      (addCore_eq_enc ha hb .minus)⟩⟩

/-- Settles O41: NEG's result is `enc` of the negated value, whose magnitude and so whose length are the source's. -/
theorem negWritesTheNegation : Obligations.NegWritesTheNegation := by
  refine ⟨rowDecodes_of_commandOf rfl fun _ _ _ => rfl, fun rd ra s =>
    ⟨exec_illegalOutside _ s, fun hrd hra ha => ⟨?_, ?_⟩⟩⟩
  · have hresult : resultOf s (.neg rd ra) = enc (-(s.reg ra).val) := addCore_zero_minus ha
    rw [exec_register_of_no_errors (wfFor_of_used_two rfl hrd hra) rfl rfl, hresult]
  · calc (enc (-(s.reg ra).val)).mag.length
        = (enc (s.reg ra).val).mag.length := by rw [length_enc, length_enc, Int.natAbs_neg]
      _ = (s.reg ra).mag.length := by rw [← BigReg.eq_enc_val ha]

end Sys2Proof.Machine
end

section
/-! ## Half-words and the products of one pass of the multiplication (R190 to R192) -/

namespace Sys2Proof.Machine

/-! ### Half-words (R190) -/

theorem toNat_halfWord (m : List Limb) (i : Nat) : (halfWord m i).toNat =
    if i % 2 = 1 then (m[i / 2]?.getD 0).toNat / 2 ^ 32 else (m[i / 2]?.getD 0).toNat % 2 ^ 32 := by
  have hl := (m[i / 2]?.getD 0).isLt
  unfold halfWord
  split
  · rw [BitVec.extractLsb'_toNat, Nat.shiftRight_eq_div_pow, Nat.mod_eq_of_lt (by omega)]
  · rw [BitVec.extractLsb'_toNat, Nat.shiftRight_zero]

theorem halfWord_cons_add_two (l : Limb) (m : List Limb) (i : Nat) : halfWord (l :: m) (i + 2) = halfWord m i := by
  simp [halfWord]

/-- The magnitude is the sum of the half-words at their weights. -/
theorem magValue_eq_sum_halfWord (m : List Limb) :
    magValue m = ∑ i ∈ Finset.range (2 * m.length), (halfWord m i).toNat * 2 ^ (32 * i) := by
  induction m with
  | nil => simp
  | cons l m ih =>
    have hlow : (halfWord (l :: m) 0).toNat = l.toNat % 2 ^ 32 := toNat_halfWord _ 0
    have hhigh : (halfWord (l :: m) 1).toNat = l.toNat / 2 ^ 32 := toNat_halfWord _ 1
    have hrest : ∑ i ∈ Finset.range (2 * m.length), (halfWord (l :: m) (i + 2)).toNat * 2 ^ (32 * (i + 2)) =
        2 ^ 64 * magValue m := by
      rw [ih, Finset.mul_sum]
      refine Finset.sum_congr rfl fun i _ => ?_
      rw [halfWord_cons_add_two]
      ring
    rw [List.length_cons, Nat.mul_succ, Finset.sum_range_succ', Finset.sum_range_succ', hrest, hlow, hhigh,
      magValue_cons]
    omega

/-- Settles O42: each half-word is a half of its limb, and the weighted sum goes limb by limb. -/
theorem halfWordsSumToTheMagnitude : Obligations.HalfWordsSumToTheMagnitude := fun m =>
  ⟨fun i h => by rw [toNat_halfWord, List.getElem?_eq_getElem h, Option.getD_some], magValue_eq_sum_halfWord m⟩

/-! ### Products of half-words (R191, R192) -/

/-- The product of two half-words is exact in one limb. -/
theorem toNat_halfProduct (ma mb : List Limb) (i j : Nat) :
    (halfProduct ma mb i j).toNat = (halfWord ma i).toNat * (halfWord mb j).toNat := by
  have hlt : (halfWord ma i).toNat * (halfWord mb j).toNat < 2 ^ 32 * 2 ^ 32 :=
    Nat.mul_lt_mul'' (halfWord ma i).isLt (halfWord mb j).isLt
  rw [halfProduct, BitVec.toNat_mul, BitVec.toNat_setWidth_of_le (by decide), BitVec.toNat_setWidth_of_le (by decide)]
  exact Nat.mod_eq_of_lt hlt

/-- The low half of a product, in the high half of a limb (R191). -/
def productLow (p : Limb) : Limb := (p.extractLsb' 0 32).setWidth 64 <<< 32

/-- The high half of a product, in the low half of a limb (R191). -/
def productHigh (p : Limb) : Limb := (p.extractLsb' 32 32).setWidth 64

theorem toNat_productLow (p : Limb) : (productLow p).toNat = p.toNat % 2 ^ 32 * 2 ^ 32 := by
  rw [productLow, BitVec.toNat_shiftLeft, BitVec.toNat_setWidth_of_le (by decide), BitVec.extractLsb'_toNat,
    Nat.shiftRight_zero, Nat.shiftLeft_eq, Nat.mod_eq_of_lt (by omega)]

theorem toNat_productHigh (p : Limb) : (productHigh p).toNat = p.toNat / 2 ^ 32 := by
  have hp := p.isLt
  rw [productHigh, BitVec.toNat_setWidth_of_le (by decide), BitVec.extractLsb'_toNat, Nat.shiftRight_eq_div_pow,
    Nat.mod_eq_of_lt (by omega)]

/-! ### Adding into an accumulator (R191, R192) -/

@[simp] theorem length_accumulate (acc : List Limb) (q : Nat) (v : Limb) : (accumulate acc q v).length = acc.length :=
  List.length_set

/-- An addition that does not overflow its limb adds the value at the limb's weight. -/
theorem magValue_accumulate {acc : List Limb} {v : Limb} : ∀ {q : Nat}, q < acc.length →
    (acc[q]?.getD 0).toNat + v.toNat < 2 ^ 64 →
    magValue (accumulate acc q v) = magValue acc + v.toNat * 2 ^ (64 * q) := by
  induction acc with
  | nil => intro q hq; simp at hq
  | cons l m ih =>
    intro q hq hfits
    cases q with
    | zero =>
      have hsum : (l + v).toNat = l.toNat + v.toNat := BitVec.toNat_add_of_lt hfits
      simp only [accumulate, List.getElem?_cons_zero, Option.getD_some, List.set_cons_zero, magValue_cons, hsum]
      omega
    | succ q =>
      have hrest := ih (Nat.lt_of_succ_lt_succ hq) hfits
      simp only [accumulate, List.getElem?_cons_succ, List.set_cons_succ, magValue_cons, two_pow_limbs_succ] at hrest ⊢
      rw [hrest]
      ring

/-- The limb at or above which the accumulator is still 0 takes any value. -/
theorem magValue_accumulate_of_lt {acc : List Limb} {q : Nat} (hq : q < acc.length)
    (hclear : magValue acc < 2 ^ (64 * q)) (v : Limb) :
    magValue (accumulate acc q v) = magValue acc + v.toNat * 2 ^ (64 * q) := by
  have hlimb : (acc[q]?.getD 0).toNat = 0 := by
    rw [toNat_getD_getElem?, Nat.div_eq_of_lt hclear, Nat.zero_mod]
  exact magValue_accumulate hq (by rw [hlimb, Nat.zero_add]; exact v.isLt)

/-- A product added across limbs `q` and `q + 1` of an accumulator (R191). -/
def straddle (acc : List Limb) (q : Nat) (p : Limb) : List Limb :=
  accumulate (accumulate acc q (productLow p)) (q + 1) (productHigh p)

@[simp] theorem length_straddle (acc : List Limb) (q : Nat) (p : Limb) : (straddle acc q p).length = acc.length := by
  simp [straddle]

/-- An addend `x` at weight `2^n` stays below `2^(n + b)` when it leaves the `k` bits there that the rest needs. -/
theorem add_mul_two_pow_lt {a x n k b : Nat} (ha : a < 2 ^ (n + k)) (hx : x + 2 ^ k ≤ 2 ^ b) :
    a + x * 2 ^ n < 2 ^ (n + b) := by
  have := Nat.mul_le_mul_right (2 ^ n) hx
  rw [Nat.pow_add] at ha ⊢
  linarith

/-- A magnitude below the weight of an added limb stays below the weight one limb up. -/
theorem add_limb_mul_two_pow_lt {a e e' : Nat} (p : Limb) (ha : a < 2 ^ e) (he : e + 64 ≤ e') :
    a + p.toNat * 2 ^ e < 2 ^ e' :=
  (add_mul_two_pow_lt (k := 0) ha p.isLt).trans_le (Nat.pow_le_pow_right (by decide) he)

/-- The straddled product lands exactly when the accumulator is below its weight: limb `q` then holds at most
32 bits, which the low half clears, and limb `q + 1` is 0. -/
theorem magValue_straddle {acc : List Limb} {q : Nat} (hq : q + 1 < acc.length)
    (hclear : magValue acc < 2 ^ (64 * q + 32)) (p : Limb) :
    magValue (straddle acc q p) = magValue acc + p.toNat * 2 ^ (64 * q + 32) := by
  have hlow := toNat_productLow p
  have hlimb : (acc[q]?.getD 0).toNat < 2 ^ 32 := by
    rw [toNat_getD_getElem?]
    rw [Nat.pow_add] at hclear
    exact (Nat.mod_le _ _).trans_lt (Nat.div_lt_of_lt_mul hclear)
  have hfirst : magValue (accumulate acc q (productLow p)) = magValue acc + (productLow p).toNat * 2 ^ (64 * q) :=
    magValue_accumulate (Nat.lt_of_succ_lt hq) (by omega)
  have hclear' : magValue (accumulate acc q (productLow p)) < 2 ^ (64 * (q + 1)) := by
    rw [hfirst]
    exact add_mul_two_pow_lt hclear (by omega)
  calc magValue (straddle acc q p)
      = magValue acc + (productLow p).toNat * 2 ^ (64 * q) + (productHigh p).toNat * 2 ^ (64 * (q + 1)) := by
        rw [straddle, magValue_accumulate_of_lt (by simpa using hq) hclear', hfirst]
    _ = magValue acc + (p.toNat % 2 ^ 32 + 2 ^ 32 * (p.toNat / 2 ^ 32)) * 2 ^ (64 * q + 32) := by
        rw [hlow, toNat_productHigh]
        ring
    _ = magValue acc + p.toNat * 2 ^ (64 * q + 32) := by rw [Nat.mod_add_div]

/-! ### One inner step (R191) -/

section

variable {ma mb : List Limb} {i j q : Nat} (acc : Accumulators)

theorem mulInner_of_even (h : i + j = 2 * q) :
    mulInner ma mb i acc j = { acc with even := accumulate acc.even q (halfProduct ma mb i j) } := by
  simp [mulInner, h]

theorem mulInner_of_odd (h : i + j = 2 * q + 1) :
    mulInner ma mb i acc j = { acc with odd := straddle acc.odd q (halfProduct ma mb i j) } := by
  have hq : (2 * q + 1) / 2 = q := by omega
  simp [mulInner, h, hq, straddle, productLow, productHigh, Nat.add_mod]

end

/-! ### The accumulators of a pass (R191, R192) -/

/-- The sum of the first `k` products of pass `i` at their weights (R192). -/
def passSum (ma mb : List Limb) (i k : Nat) : Nat :=
  ∑ j ∈ Finset.range k, (halfWord ma i).toNat * (halfWord mb j).toNat * 2 ^ (32 * (i + j))

theorem passSum_succ (ma mb : List Limb) (i k : Nat) :
    passSum ma mb i (k + 1) = passSum ma mb i k + (halfProduct ma mb i k).toNat * 2 ^ (32 * (i + k)) := by
  rw [passSum, Finset.sum_range_succ, ← passSum, toNat_halfProduct]

/-- The accumulators a pass starts from (R191). -/
def zeroAccumulators (ma mb : List Limb) : Accumulators :=
  ⟨List.replicate (ma.length + mb.length) 0, List.replicate (ma.length + mb.length) 0⟩

/-- After the first `k` products of pass `i`: the accumulators hold their exact sum, and each one is below the
weight of the next product that it takes. -/
structure HoldsProducts (ma mb : List Limb) (i k : Nat) (acc : Accumulators) : Prop where
  length_even : acc.even.length = ma.length + mb.length
  length_odd : acc.odd.length = ma.length + mb.length
  total : magValue acc.even + magValue acc.odd = passSum ma mb i k
  even_lt : ∀ q, i + k ≤ 2 * q → magValue acc.even < 2 ^ (64 * q)
  odd_lt : ∀ q, i + k ≤ 2 * q + 1 → magValue acc.odd < 2 ^ (64 * q + 32)

section

variable {ma mb : List Limb} {i : Nat}

theorem holdsProducts_zeroAccumulators (ma mb : List Limb) (i : Nat) :
    HoldsProducts ma mb i 0 (zeroAccumulators ma mb) where
  length_even := List.length_replicate
  length_odd := List.length_replicate
  total := by simp [zeroAccumulators, passSum]
  even_lt _ _ := by simp [zeroAccumulators]
  odd_lt _ _ := by simp [zeroAccumulators]

variable (hi : i < 2 * ma.length)
include hi

theorem HoldsProducts.step {k : Nat} {acc : Accumulators} (hk : k < 2 * mb.length) (h : HoldsProducts ma mb i k acc) :
    HoldsProducts ma mb i (k + 1) (mulInner ma mb i acc k) := by
  obtain ⟨hleneven, hlenodd, htotal, heven, hodd⟩ := h
  obtain ⟨q, hq | hq⟩ := Nat.even_or_odd' (i + k)
  · have hval := magValue_accumulate_of_lt (hleneven ▸ by omega) (heven q hq.le) (halfProduct ma mb i k)
    have hweight : 32 * (i + k) = 64 * q := by omega
    rw [mulInner_of_even acc hq]
    refine ⟨by simpa using hleneven, hlenodd, ?_, fun r hr => ?_, fun r hr => hodd r (by omega)⟩
    · rw [passSum_succ, hweight, ← htotal, hval, Nat.add_right_comm]
    · rw [hval]
      exact add_limb_mul_two_pow_lt _ (heven q hq.le) (by omega)
  · have hval := magValue_straddle (hlenodd ▸ by omega) (hodd q hq.le) (halfProduct ma mb i k)
    have hweight : 32 * (i + k) = 64 * q + 32 := by omega
    rw [mulInner_of_odd acc hq]
    refine ⟨hleneven, by simpa using hlenodd, ?_, fun r hr => heven r (by omega), fun r hr => ?_⟩
    · rw [passSum_succ, hweight, ← htotal, hval, Nat.add_assoc]
    · rw [hval]
      exact add_limb_mul_two_pow_lt _ (hodd q hq.le) (by omega)

/-- The two accumulators of a pass hold exactly the sum of its products. -/
theorem magValue_mulAccumulators (mb : List Limb) :
    magValue (mulAccumulators ma mb i).even + magValue (mulAccumulators ma mb i).odd =
      passSum ma mb i (2 * mb.length) := by
  have hfold : ∀ k ≤ 2 * mb.length, HoldsProducts ma mb i k
      ((List.range k).foldl (mulInner ma mb i) (zeroAccumulators ma mb)) := by
    intro k
    induction k with
    | zero => exact fun _ => holdsProducts_zeroAccumulators ma mb i
    | succ k ih =>
      intro hk
      rw [List.range_succ, List.foldl_concat]
      exact (ih (Nat.le_of_succ_le hk)).step hi hk
  exact (hfold _ le_rfl).total

end

/-- Settles O43: the accumulators' total is the exact sum of the products, each of which is exact. -/
theorem halfWordAccumulationNeverOverflows : Obligations.HalfWordAccumulationNeverOverflows := fun ma mb i hi =>
  ⟨toNat_halfProduct ma mb i, magValue_mulAccumulators hi mb⟩

end Sys2Proof.Machine
end

section
/-! ## The product of two limb lists, and MUL (R191 to R196) -/

namespace Sys2Proof.Machine

/-! ### The running result of the passes (R191, R193) -/

/-- A pass adds its products to a running result. -/
theorem mulPass_enc {ma mb : List Limb} {i : Nat} (hi : i < 2 * ma.length) (n : Nat) :
    mulPass ma mb (enc n) i = enc (n + passSum ma mb i (2 * mb.length) : Nat) := by
  have hval : ∀ m : List Limb, (⟨false, canon m⟩ : BigReg).val = magValue m := fun m =>
    congrArg Nat.cast (magValue_canon m)
  rw [mulPass, addCore_eq_enc (canonical_enc _) (canonical_canon _),
    addCore_eq_enc (canonical_enc _) (canonical_canon _)]
  simp only [OpSign.apply, val_enc, hval]
  rw [← magValue_mulAccumulators hi, ← Nat.add_assoc, Nat.cast_add, Nat.cast_add]

/-- The running result after the first `k` passes is the sum of their products. -/
theorem foldl_mulPass (ma mb : List Limb) : ∀ k ≤ 2 * ma.length, (List.range k).foldl (mulPass ma mb) (enc 0) =
    enc (∑ i ∈ Finset.range k, passSum ma mb i (2 * mb.length) : Nat) := by
  intro k
  induction k with
  | zero => exact fun _ => rfl
  | succ k ih =>
    intro hk
    rw [List.range_succ, List.foldl_concat, ih (Nat.le_of_succ_le hk), mulPass_enc hk, Finset.sum_range_succ]

/-- The products of all passes add up to the product of the magnitudes. -/
theorem sum_passSum (ma mb : List Limb) :
    ∑ i ∈ Finset.range (2 * ma.length), passSum ma mb i (2 * mb.length) = magValue ma * magValue mb := by
  rw [magValue_eq_sum_halfWord ma, magValue_eq_sum_halfWord mb, Finset.sum_mul_sum]
  refine Finset.sum_congr rfl fun i _ => Finset.sum_congr rfl fun j _ => ?_
  rw [Nat.mul_add, Nat.pow_add, Nat.mul_mul_mul_comm]

/-- `MulCore` computes `limbs` of the product, whether its operands are canonical or not (R193). -/
theorem mulCore_eq_limbsOf (ma mb : List Limb) : mulCore ma mb = limbsOf (magValue ma * magValue mb) := by
  rw [mulCore, foldl_mulPass ma mb _ le_rfl, sum_passSum]
  exact congrArg limbsOf (Int.natAbs_natCast _)

/-! ### The length of a product (R193) -/

/-- A nonzero number reaches its most significant limb. -/
theorem pow_limbCount_pred_le {n : Nat} (h : n ≠ 0) : 2 ^ (64 * (limbCount n - 1)) ≤ n := by
  rcases Nat.eq_zero_or_pos (limbCount n - 1) with hone | hmany
  · rw [hone, Nat.mul_zero, Nat.pow_zero]
    exact Nat.pos_of_ne_zero h
  · have hnot : ¬limbCount n ≤ limbCount n - 1 := by omega
    rw [limbCount_le_iff] at hnot
    exact Nat.le_of_not_lt fun hlt => hnot ⟨hmany, hlt⟩

/-- A product of nonzero numbers needs as many limbs as both together, or one less. -/
theorem limbCount_mul {a b : Nat} (ha : a ≠ 0) (hb : b ≠ 0) :
    limbCount (a * b) = limbCount a + limbCount b - 1 ∨ limbCount (a * b) = limbCount a + limbCount b := by
  have hposa := limbCount_pos a
  have hposb := limbCount_pos b
  have hupper : limbCount (a * b) ≤ limbCount a + limbCount b := by
    refine (limbCount_le_iff _ _).2 ⟨by omega, ?_⟩
    rw [Nat.mul_add, Nat.pow_add]
    exact Nat.mul_lt_mul'' (lt_pow_limbCount a) (lt_pow_limbCount b)
  have hlower : ¬limbCount (a * b) ≤ limbCount a - 1 + (limbCount b - 1) := by
    rw [limbCount_le_iff, Nat.mul_add, Nat.pow_add]
    exact fun h => h.2.not_ge (Nat.mul_le_mul (pow_limbCount_pred_le ha) (pow_limbCount_pred_le hb))
  omega

/-- Settles O44: the passes compute `limbs` of the product, and canonical operands have the lengths of their
magnitudes. -/
theorem mulCoreComputesTheProduct : Obligations.MulCoreComputesTheProduct := by
  refine fun ma mb ha hb => ⟨mulCore_eq_limbsOf ma mb, fun hnea hneb => ?_⟩
  rw [mulCore_eq_limbsOf, length_limbsOf, (canonicalMag_iff_length ma).1 ha, (canonicalMag_iff_length mb).1 hb]
  exact limbCount_mul hnea hneb

/-! ### MUL (R194 to R196) -/

/-- The sign rule multiplies the values; where the product is 0 the sign does not count (R194). -/
theorem val_mulReg (a b : BigReg) : (mulReg a b).val = a.val * b.val := by
  have hmag : magValue (mulCore a.mag b.mag) = magValue a.mag * magValue b.mag := by
    rw [mulCore_eq_limbsOf, magValue_limbsOf]
  have hsign : (mulReg a b).val = (⟨a.neg ^^ b.neg, mulCore a.mag b.mag⟩ : BigReg).val := by
    by_cases hzero : mulCore a.mag b.mag = [0]
    · simp [mulReg, BigReg.val, hzero]
    · rw [mulReg, if_neg hzero]
  rw [hsign, BigReg.val, BigReg.val, BigReg.val, hmag, Nat.cast_mul]
  cases a.neg <;> cases b.neg <;> simp

/-- `MUL` computes `enc` of the product, zero positive whatever the signs (R194). -/
theorem mulReg_eq_enc (a b : BigReg) : mulReg a b = enc (a.val * b.val) := by
  rw [BigReg.eq_enc_val (canonical_mulReg a b), val_mulReg]

/-- Settles O45: MUL's result is `enc` of the product, checked against `LMAX`. -/
theorem mulWritesTheProduct : Obligations.MulWritesTheProduct :=
  ⟨rowDecodes_of_commandOf rfl fun _ _ _ => rfl, fun _ _ _ s => ⟨exec_illegalOutside _ s,
    fun hlegal hrd hra hrb _ _ => exec_enc_or_capacity (wfFor_of_used_three rfl hrd hra hrb) rfl hlegal rfl
      (mulReg_eq_enc _ _)⟩⟩

end Sys2Proof.Machine
end

section
/-! ## The errors a well-formed command can leave (R211 to R213) -/

namespace Sys2Proof.Machine

/-- The length check leaves NONE or CAPACITY (R166, R195). -/
theorem capacityCode_mem {codes : List ErrCode} (hnone : .none ∈ codes) (hcapacity : .capacity ∈ codes)
    (lmax : Nat) (v : BigReg) : capacityCode lmax v ∈ codes := by
  unfold capacityCode
  split
  · exact hcapacity
  · exact hnone

theorem checkOf_parse_mem_errorsOf (s : State) (rd : Nat) : checkOf s (.parse rd) ∈ errorsOf (.parse rd) := by
  dsimp only [checkOf, errorsOf]
  split
  · decide
  · split
    · exact capacityCode_mem (by decide) (by decide) _ _
    · decide

theorem checkOf_render_mem_errorsOf (s : State) (ra : Nat) : checkOf s (.render ra) ∈ errorsOf (.render ra) := by
  dsimp only [checkOf, errorsOf]
  split <;> decide

/-- The checks of a command leave only the codes of its row in the table of R212. -/
theorem checkOf_mem_errorsOf (s : State) (i : Instr) : checkOf s i ∈ errorsOf i := by
  cases i with
  | ldi | ldu | mov | neg | cmp | cmpm | cmpu | rdlimb | rdinfo => exact List.mem_singleton_self _
  | parse rd => exact checkOf_parse_mem_errorsOf s rd
  | render ra => exact checkOf_render_mem_errorsOf s ra
  | add | sub | mul => exact capacityCode_mem (by simp [errorsOf]) (by simp [errorsOf]) _ _

/-- Settles O11: where the indexes are legal, the code left is that of the command's own checks. -/
theorem commandRaisesOnlyItsListedErrors : Obligations.CommandRaisesOnlyItsListedErrors := by
  intro i s t hwf h
  rw [exec_err h, errorOf, if_pos hwf]
  exact checkOf_mem_errorsOf s i

end Sys2Proof.Machine
end

section
/-! ## A CMD write, and the completion of an accepted command (R216, R242, R244, R253) -/

namespace Sys2Proof.Machine

/-- Settles O46: the access is a legal one to CMD, and the two cases are those of `State.writeCmd`. -/
theorem commandWriteIsAcceptedOrDropped : Obligations.CommandWriteIsAcceptedOrDropped := by
  intro s c rest hreset hinputs
  have hstep : step s = .next (({ s with inputs := rest } : State).writeCmd c) :=
    step_hostWrite hreset (by decide) hinputs
  refine ⟨fun hidle => ?_, fun p hbusy => ?_⟩
  · exact hstep.trans (congrArg _ (State.writeCmd_idle _ c hidle))
  · exact hstep.trans (congrArg _ (State.writeCmd_busy _ c p hbusy))

/-! ### The inputs under one step (R243, R244; log 4) -/

/-- The engine's turn has a next state, with an empty latch; the coming inputs and the reset input stay (R214, R253). -/
theorem engineTurn_empties_pend (s : State) :
    ∃ t, engineTurn s = .next t ∧ t.pend = none ∧ t.inputs = s.inputs ∧ t.resetApplied = s.resetApplied := by
  obtain ⟨t, hturn⟩ := engineTurn_completes s
  refine ⟨t, hturn, ?_⟩
  obtain ⟨hidle, rfl⟩ | ⟨code, -, rfl⟩ | ⟨i, u, -, heffect, rfl⟩ := engineTurn_cases hturn
  · exact ⟨hidle, rfl, rfl⟩
  · exact ⟨rfl, rfl, rfl⟩
  · rw [heffect.frame]
    exact ⟨rfl, rfl, rfl⟩

theorem hostAccess_of_legal {bits : Nat} {o : Offset} {s : State} (run : State → State) (hreset : s.resetApplied = false)
    (haccess : legalAccess bits o = true) : hostAccess bits o run s = .next (run s) :=
  (hostAccess_next bits o run s _).2 ⟨hreset, haccess, rfl⟩

/-- A legal input has a next state; it adds no input, and the inputs after it are legal there. -/
theorem runInput_of_legalInputs {s : State} {i : Input} {rest : List Input}
    (h : legalInputs s.resetApplied (i :: rest) = true) :
    ∃ t, runInput i s = .next t ∧ t.inputs = s.inputs ∧ legalInputs t.resetApplied rest = true := by
  cases i with
  | hostRead bits o =>
    simp only [legalInputs, Bool.and_eq_true, Bool.not_eq_true'] at h
    obtain ⟨⟨hreset, haccess⟩, hrest⟩ := h
    rw [runInput, hostRead, hostAccess_of_legal _ hreset haccess]
    exact ⟨_, rfl, rfl, hrest⟩
  | hostWrite bits o d =>
    simp only [legalInputs, Bool.and_eq_true, Bool.not_eq_true'] at h
    obtain ⟨⟨hreset, haccess⟩, hrest⟩ := h
    rw [runInput, hostWrite, hostAccess_of_legal _ hreset haccess, State.busWrite_eq]
    exact ⟨_, rfl, rfl, hrest⟩
  | engine =>
    obtain ⟨t, hturn, -, hinputs, hreset⟩ := engineTurn_empties_pend s
    exact ⟨t, hturn, hinputs, hreset ▸ h⟩
  | applyReset | releaseReset => exact ⟨_, rfl, rfl, h⟩

/-- The run takes all the coming inputs when they are legal (R253; log 4). -/
theorem run_takes_legalInputs {inputs : List Input} : ∀ {s : State}, s.inputs = inputs →
    legalInputs s.resetApplied inputs = true → ∃ t : State, Sys2Proof.core.run inputs.length s = .next t ∧ t.inputs = [] := by
  induction inputs with
  | nil => exact fun {s} hinputs _ => ⟨s, rfl, hinputs⟩
  | cons i rest ih =>
    intro s hinputs hlegal
    obtain ⟨u, hrun, hrest, hlegal⟩ := runInput_of_legalInputs (s := { s with inputs := rest }) hlegal
    obtain ⟨t, ht, hdone⟩ := ih hrest hlegal
    exact ⟨t, (core_run_of_step ((step_input s i rest hinputs).trans hrun) _).trans ht, hdone⟩

/-- Settles O60: the run takes the legal inputs, and the step with no input left is the engine's turn. -/
theorem pendingCommandCompletesAfterTheInputs : Obligations.PendingCommandCompletesAfterTheInputs := by
  intro s hlegal
  obtain ⟨u, hrun, hdone⟩ := run_takes_legalInputs rfl hlegal
  obtain ⟨t, hturn, hpend, hinputs, -⟩ := engineTurn_empties_pend u
  refine ⟨t, ?_, hpend, hinputs.trans hdone⟩
  exact (core_run_add 1 hrun).trans (core_run_of_step ((step_no_input u hdone).trans hturn) 0)

end Sys2Proof.Machine
end
